-- ==== Sys2Proof/Word.lean ====
section
/-! DEFINITION. The one word of the machine: a byte (00_scope.md R4 `XLEN`, R11). Registers, PC, SP, FL,
memory cells, opcode bytes, operand bytes and addresses are all bytes, and `+`, `-`, `*` on them are the
`+8`, `-8`, `*8` of R11: the exact result modulo 256 (R5). -/

namespace Sys2Proof

/-- An 8-bit unsigned value; bit 0 is the least significant (R11). -/
abbrev Byte := BitVec 8

end Sys2Proof
end

