-- ==== Sys2Proof/Config.lean ====
section
/-! DEFINITION. What an implementation of the block fixes at construction: `ALU_EXT` (00_scope.md R6),
`OPCODE_MAP` (R7) and the select bytes of the ALU (41_alu.md R100, R101). The tables' values and what is
computed from them stand in Sys2Proof/Decode.lean. The machine leaves no value free, so nothing here is
opaque (log entry 15). -/

namespace Sys2Proof

/-- `OPCODE_MAP` (R7): the opcode byte of each of the 19 instructions of 30_encoding.md R64 and R65. -/
structure OpcodeMap where
  hlt : Byte
  ldi : Byte
  prn : Byte
  add : Byte
  mul : Byte
  cmp : Byte
  push : Byte
  pop : Byte
  call : Byte
  ret : Byte
  jmp : Byte
  jeq : Byte
  jne : Byte
  sub : Byte
  and : Byte
  or : Byte
  xor : Byte
  shl : Byte
  shr : Byte
deriving DecidableEq, Repr

/-- The select byte each function of the ALU answers to (R100: the select is the opcode byte). It is a
table apart from `OPCODE_MAP`, because R183 speaks of an opcode map changed without the ALU. -/
structure AluMap where
  add : Byte
  mul : Byte
  cmp : Byte
  sub : Byte
  and : Byte
  or : Byte
  xor : Byte
  shl : Byte
  shr : Byte
deriving DecidableEq, Repr

/-- The functions of the ALU (R100). -/
inductive AluFn where
  | add | mul | cmp | sub | and | or | xor | shl | shr
deriving DecidableEq, Repr

/-- The parameters of one block. No instruction reads or writes them and reset keeps them (10_state.md
R29). DESIGN CHOICE: they are held in `State.config` (log entry 2). -/
structure Config where
  /-- `ALU_EXT` (R6). -/
  aluExt : Bool
  /-- `OPCODE_MAP` (R7). -/
  opcodeMap : OpcodeMap
  /-- The ALU's select bytes (R100, R183). -/
  aluMap : AluMap
deriving DecidableEq, Repr

end Sys2Proof
end

