-- ==== Sys2Proof/Syntax.lean ====
section
/-! DEFINITION. The instructions: one constructor of `Instr` per row of opcode_table.json, each with the
operand bytes its format has (30_encoding.md R68). A register operand is the WHOLE operand byte, 8 to 255
included: such a byte decodes, and raises `RegRange` when the instruction uses it (R67). -/

namespace Sys2Proof

/-- An instruction with its operand bytes (R64, R65, R68). -/
inductive Instr where
  /-- HLT (R165). -/
  | hlt
  /-- LDI a, imm (R160). -/
  | ldi (a imm : Byte)
  /-- PRN a (R161). -/
  | prn (a : Byte)
  /-- ADD a, b (R102). -/
  | add (a b : Byte)
  /-- MUL a, b (R103). -/
  | mul (a b : Byte)
  /-- CMP a, b (R104). -/
  | cmp (a b : Byte)
  /-- PUSH a (R131). -/
  | push (a : Byte)
  /-- POP a (R132). -/
  | pop (a : Byte)
  /-- CALL a (R140). -/
  | call (a : Byte)
  /-- RET (R141). -/
  | ret
  /-- JMP a (R142). -/
  | jmp (a : Byte)
  /-- JEQ a (R143). -/
  | jeq (a : Byte)
  /-- JNE a (R144). -/
  | jne (a : Byte)
  /-- SUB a, b (R105, `ALU_EXT`). -/
  | sub (a b : Byte)
  /-- AND a, b (R106, `ALU_EXT`). -/
  | and (a b : Byte)
  /-- OR a, b (R107, `ALU_EXT`). -/
  | or (a b : Byte)
  /-- XOR a, b (R108, `ALU_EXT`). -/
  | xor (a b : Byte)
  /-- SHL a, b (R109, `ALU_EXT`). -/
  | shl (a b : Byte)
  /-- SHR a, b (R110, `ALU_EXT`). -/
  | shr (a b : Byte)
deriving DecidableEq, Repr

/-- The handler names an entry of the decode ROM can hold (10_state.md R29). -/
inductive Mnemonic where
  | hlt | ldi | prn | add | mul | cmp | push | pop | call | ret | jmp | jeq | jne
  | sub | and | or | xor | shl | shr
deriving DecidableEq, Repr

/-- The handler name of an instruction. -/
def Instr.mnemonic : Instr → Mnemonic
  | .hlt => .hlt
  | .ldi _ _ => .ldi
  | .prn _ => .prn
  | .add _ _ => .add
  | .mul _ _ => .mul
  | .cmp _ _ => .cmp
  | .push _ => .push
  | .pop _ => .pop
  | .call _ => .call
  | .ret => .ret
  | .jmp _ => .jmp
  | .jeq _ => .jeq
  | .jne _ => .jne
  | .sub _ _ => .sub
  | .and _ _ => .and
  | .or _ _ => .or
  | .xor _ _ => .xor
  | .shl _ _ => .shl
  | .shr _ _ => .shr

end Sys2Proof
end

