-- ==== Sys2Proof/Decode.lean ====
section
/-! DEFINITION. The decoder, total on any bytes, and after it the encoder, both written from the tables of
30_encoding.md (R60 to R69), with the default tables and the fields of an opcode byte. A byte the decode
ROM has no entry for is rejected by name, `Decoded.unknown`; what the step does with it is R86 and R87. -/

namespace Sys2Proof

/-! ## Fields of an opcode byte -/

/-- Bits 7 to 6: the operand count (R61); 3 is possible for an unknown opcode. -/
def operandCount (op : Byte) : Nat := (op.extractLsb' 6 2).toNat

/-- Bit 4: the sets-PC bit (R62). -/
def setsPc (op : Byte) : Bool := op.getLsbD 4

/-- The length `1 + op[7:6]` (R60). -/
def instrLength (op : Byte) : Nat := 1 + operandCount op

/-! ## The tables -/

/-- The default `OPCODE_MAP` (R64, R65). HLT, LDI and PRN are the source's bytes; the others are the
spec's, from general knowledge (92_eei_decisions.md D5, D7; log entry 2). -/
def OpcodeMap.ls8 : OpcodeMap :=
  { hlt := 0x01, ldi := 0x82, prn := 0x47, add := 0xA0, mul := 0xA2, cmp := 0xA7, push := 0x45
    pop := 0x46, call := 0x50, ret := 0x11, jmp := 0x54, jeq := 0x55, jne := 0x56
    sub := 0xA1, and := 0xA8, or := 0xAA, xor := 0xAB, shl := 0xAC, shr := 0xAD }

/-- The select bytes of the ALU that goes with the default map (41_alu.md R100, R102 to R110). -/
def AluMap.ls8 : AluMap :=
  { add := 0xA0, mul := 0xA2, cmp := 0xA7, sub := 0xA1, and := 0xA8, or := 0xAA, xor := 0xAB
    shl := 0xAC, shr := 0xAD }

/-- The machine the source describes, `ALU_EXT = false` (00_scope.md R6): the default. -/
def Config.base : Config := { aluExt := false, opcodeMap := .ls8, aluMap := .ls8 }

/-- The machine with `ALU_EXT = true` (R6). -/
def Config.extended : Config := { aluExt := true, opcodeMap := .ls8, aluMap := .ls8 }

/-- The byte a map gives an instruction. -/
def OpcodeMap.byteOf (t : OpcodeMap) : Mnemonic → Byte
  | .hlt => t.hlt
  | .ldi => t.ldi
  | .prn => t.prn
  | .add => t.add
  | .mul => t.mul
  | .cmp => t.cmp
  | .push => t.push
  | .pop => t.pop
  | .call => t.call
  | .ret => t.ret
  | .jmp => t.jmp
  | .jeq => t.jeq
  | .jne => t.jne
  | .sub => t.sub
  | .and => t.and
  | .or => t.or
  | .xor => t.xor
  | .shl => t.shl
  | .shr => t.shr

/-- The select byte of an ALU function. -/
def AluMap.byteOf (t : AluMap) : AluFn → Byte
  | .add => t.add
  | .mul => t.mul
  | .cmp => t.cmp
  | .sub => t.sub
  | .and => t.and
  | .or => t.or
  | .xor => t.xor
  | .shl => t.shl
  | .shr => t.shr

/-- The rows of R64, then those of R65. -/
def Mnemonic.all : List Mnemonic :=
  [.hlt, .ldi, .prn, .add, .mul, .cmp, .push, .pop, .call, .ret, .jmp, .jeq, .jne] ++
  [.sub, .and, .or, .xor, .shl, .shr]

/-- The functions of R100. -/
def AluFn.all : List AluFn := [.add, .mul, .cmp, .sub, .and, .or, .xor, .shl, .shr]

/-- The instruction an ALU function serves (R102 to R110). -/
def AluFn.mnemonic : AluFn → Mnemonic
  | .add => .add
  | .mul => .mul
  | .cmp => .cmp
  | .sub => .sub
  | .and => .and
  | .or => .or
  | .xor => .xor
  | .shl => .shl
  | .shr => .shr

/-- The six instructions of R65, which only `ALU_EXT = true` decodes. -/
def Mnemonic.isExt : Mnemonic → Bool
  | .sub | .and | .or | .xor | .shl | .shr => true
  | .hlt | .ldi | .prn | .add | .mul | .cmp | .push | .pop | .call | .ret | .jmp | .jeq | .jne => false

/-- The operand count column of R64 and R65. -/
def Mnemonic.operandCount : Mnemonic → Nat
  | .hlt | .ret => 0
  | .prn | .push | .pop | .call | .jmp | .jeq | .jne => 1
  | .ldi | .add | .mul | .cmp | .sub | .and | .or | .xor | .shl | .shr => 2

/-- The sets-PC column of R64 and R65. -/
def Mnemonic.setsPc : Mnemonic → Bool
  | .call | .ret | .jmp | .jeq | .jne => true
  | .hlt | .ldi | .prn | .add | .mul | .cmp | .push | .pop => false
  | .sub | .and | .or | .xor | .shl | .shr => false

/-- Whether a block has the instruction (00_scope.md R6). -/
def Config.has (c : Config) (m : Mnemonic) : Bool := c.aluExt || !m.isExt

/-- The decode ROM (10_state.md R29): the entry of each of the 256 bytes, matched on all 8 bits (R63,
40_step.md R82); `none` is the spec's `NONE`. -/
def Config.decodeRom (c : Config) (op : Byte) : Option Mnemonic :=
  Mnemonic.all.find? fun m => c.has m && c.opcodeMap.byteOf m == op

/-- A table a block can be built with: no byte names two instructions, bits 7 to 6 and bit 4 of each byte
agree with the instruction (R61, R62), and the ALU answers to the bytes the ROM sends it (R101). The
default tables meet it (`Laws.Config.base_wf`). -/
def Config.wf (c : Config) : Bool :=
  decide (Mnemonic.all.map c.opcodeMap.byteOf).Nodup &&
  Mnemonic.all.all (fun m =>
    Sys2Proof.operandCount (c.opcodeMap.byteOf m) == m.operandCount &&
    Sys2Proof.setsPc (c.opcodeMap.byteOf m) == m.setsPc) &&
  AluFn.all.all fun f => c.aluMap.byteOf f == c.opcodeMap.byteOf f.mnemonic

/-! ## Decoding -/

/-- What three fetched bytes stand for: an instruction, or an unknown opcode by its byte (R66). -/
inductive Decoded where
  | instr (i : Instr)
  | unknown (op : Byte)
deriving DecidableEq, Repr

/-- An instruction from its handler name and the bytes `opA`, `opB` (40_step.md R83). A byte the
instruction does not use is ignored (R67). -/
def Mnemonic.build : Mnemonic → Byte → Byte → Instr
  | .hlt, _, _ => .hlt
  | .ldi, a, b => .ldi a b
  | .prn, a, _ => .prn a
  | .add, a, b => .add a b
  | .mul, a, b => .mul a b
  | .cmp, a, b => .cmp a b
  | .push, a, _ => .push a
  | .pop, a, _ => .pop a
  | .call, a, _ => .call a
  | .ret, _, _ => .ret
  | .jmp, a, _ => .jmp a
  | .jeq, a, _ => .jeq a
  | .jne, a, _ => .jne a
  | .sub, a, b => .sub a b
  | .and, a, b => .and a b
  | .or, a, b => .or a b
  | .xor, a, b => .xor a b
  | .shl, a, b => .shl a b
  | .shr, a, b => .shr a b

/-- Decode the three bytes a step fetches (40_step.md R81, R82). -/
def decode (c : Config) (op a b : Byte) : Decoded :=
  match c.decodeRom op with
  | some m => .instr (m.build a b)
  | none => .unknown op

/-- Decode the instruction at the head of a string of bytes; a byte past its end reads as the 0x00 of
unwritten memory (20_memory.md R46). -/
def decodeBytes (c : Config) (bs : List Byte) : Decoded :=
  decode c (bs.getD 0 0) (bs.getD 1 0) (bs.getD 2 0)

/-! ## Encoding -/

/-- The operand bytes of an instruction in address order (R68). -/
def Instr.operands : Instr → List Byte
  | .hlt | .ret => []
  | .prn a | .push a | .pop a | .call a | .jmp a | .jeq a | .jne a => [a]
  | .ldi a imm => [a, imm]
  | .add a b | .mul a b | .cmp a b | .sub a b | .and a b | .or a b | .xor a b | .shl a b
  | .shr a b => [a, b]

/-- The bytes of an instruction in address order (R60, R68). -/
def encode (c : Config) (i : Instr) : List Byte :=
  c.opcodeMap.byteOf i.mnemonic :: i.operands

/-! ## The words of opcode_table.json -/

/-- Byte `k` of a table word of `nbits` bits: bits `8k + 7` to `8k`, and 0 above `nbits`. DESIGN CHOICE: as a
number a word has its first byte in the low bits, though R68 writes the bit string `op ++ a ++ b`, whose high
bits are `op` by 00_scope.md R11; the spec numbers no word of several bytes (log entry 19). -/
def tableByte (nbits w k : Nat) : Byte := BitVec.ofNat 8 ((w % 2 ^ nbits) >>> (8 * k))

/-- The instruction the decoder reads from a word of opcode_table.json. The table lists the rows of both
values of `ALU_EXT`, so the word is read with `ALU_EXT = true`; on the 13 base rows the two machines agree
(log entry 14). -/
def decodeTableWord (nbits w : Nat) : Option Instr :=
  match decode .extended (tableByte nbits w 0) (tableByte nbits w 1) (tableByte nbits w 2) with
  | .instr i => some i
  | .unknown _ => none

/-- The block with `ALU_EXT` switched on where `op` is a byte of R65, which only then decodes. -/
def Config.admitting (c : Config) (op : Byte) : Config :=
  match { c with aluExt := true }.decodeRom op with
  | some m => { c with aluExt := c.aluExt || m.isExt }
  | none => c

end Sys2Proof
end

