-- ==== Sys2Proof/Machine/State.lean ====
section
/-! DEFINITION. The state of the machine: every piece the table of 10_state.md R33 lists, and nothing else
(R34). Its operations stand in Sys2Proof/Machine/Ops.lean and Operands.lean. -/

namespace Sys2Proof.Machine

/-- The run state (10_state.md R27). `halted` and `faulted` are terminal (40_step.md R85). -/
inductive RunState where
  | running | halted | faulted
deriving DecidableEq, Repr

/-- Reasons for which a step stops with a fault: NONE. Every fatal condition of the spec is the terminal
run state FAULTED, a next state (60_exceptions.md R181, R184), and no address is absent (20_memory.md
R41), so nothing raises one: a type without constructors. Safe. -/
inductive Fault : Type
deriving DecidableEq, Repr

/-- Reasons for which a step gives no meaning. -/
inductive Refusal where
  /-- An instruction without a meaning, by its mnemonic: raised by a refused arm of `exec` only (there is
  none). Safe. -/
  | notModelled (mnemonic : String)
  /-- `fault_cause` is the reserved code 3 in a FAULTED state: raised by `step` (60_exceptions.md R181;
  93_implementation_defined.md K16 "A model that sees it must `refuse`"). Safe: no step produces the code
  (log entry 4). -/
  | reservedFaultCause
deriving DecidableEq, Repr

/-- Memory: the written bytes by address, in the canonical form `Memory.wf` of Sys2Proof/Machine/Ops.lean:
addresses strictly rising and below 256 (20_memory.md R40), no cell holding what an unlisted address reads
as. -/
abbrev Memory := List Host.Cell

/-- The architectural state (10_state.md R33). -/
structure State where
  /-- R0 to R7 (R20). -/
  regs : Vector Byte 8
  /-- The address of the opcode byte of the instruction being executed (R24). -/
  pc : Byte
  /-- The stack pointer, apart from the register file (R26). -/
  sp : Byte
  /-- The flags register (R28). -/
  fl : Byte
  /-- The run state (R27). -/
  runState : RunState
  /-- Why the block is FAULTED; 0 while it is not (R30, 60_exceptions.md R181). -/
  faultCause : BitVec 2
  /-- The address of the faulting opcode byte (R30, 60_exceptions.md R184). -/
  faultPc : Byte
  /-- The value the cause names (R30, 60_exceptions.md R181). -/
  faultInfo : Byte
  /-- The latched opcode byte (R31). -/
  op : Byte
  /-- The latched first operand byte (R31). -/
  opA : Byte
  /-- The latched second operand byte (R31). -/
  opB : Byte
  /-- The memory array (20_memory.md R40). -/
  mem : Memory
  /-- The values PRN has emitted since reset, oldest first (R32). -/
  output : List Byte
  /-- The parameters that fix the decode ROM (R29) and the ALU; no step changes them. -/
  config : Config
deriving DecidableEq, Repr

/-- The machine right after reset (10_state.md R33, 70_reset_and_hazards.md R210), with the default
parameters (00_scope.md R6, R7). DESIGN CHOICE: the three latches, whose reset value the spec leaves
unspecified (R31), hold 0x00 (log entry 1). -/
def State.reset : State :=
  { regs := #v[0x00, 0x00, 0x00, 0x00, 0x00, 0x00, 0x00, 0xF4]
    pc := 0x00
    sp := 0xF4
    fl := 0x00
    runState := .running
    faultCause := 0
    faultPc := 0x00
    faultInfo := 0x00
    op := 0x00
    opA := 0x00
    opB := 0x00
    mem := []
    output := []
    config := .base }

end Sys2Proof.Machine
end

