-- ==== Sys2Proof/Machine/Ops.lean ====
section
/-! DEFINITION. The operations every meaning is built from: memory (20_memory.md), fetch and advance
(40_step.md), the stack primitives (42_stack.md), output and halt (44_load_print_halt.md), taking a fault
(60_exceptions.md) and reset (70_reset_and_hazards.md). -/

namespace Sys2Proof.Machine

/-! ## Memory -/

/-- What an address that no write reached reads as: the reset contents 0x00 (20_memory.md R46,
10_state.md R33; the spec's decision D4, log entry 10). -/
def Memory.unlisted : Byte := 0x00

/-- The byte a list of cells holds at an address. -/
def Memory.readAt : Memory → Nat → Byte
  | [], _ => Memory.unlisted
  | (k, v) :: rest, a => if k = a then v else Memory.readAt rest a

/-- The list without the cell of an address. -/
def Memory.eraseAt (m : Memory) (a : Nat) : Memory := m.filter fun c => c.1 != a

/-- The list with a cell put before the first higher address. -/
def Memory.insertAt : Memory → Nat → Byte → Memory
  | [], a, v => [(a, v)]
  | (k, w) :: rest, a, v =>
    if a < k then (a, v) :: (k, w) :: rest else (k, w) :: Memory.insertAt rest a v

/-- The list with one byte replaced, kept in canonical form: the old cell goes, and a new one comes unless
an unlisted address reads as the byte anyway. -/
def Memory.writeAt (m : Memory) (a : Nat) (v : Byte) : Memory :=
  if v = Memory.unlisted then m.eraseAt a else (m.eraseAt a).insertAt a v

/-- Canonical from the address `lo` on: strictly rising addresses below 256, no cell that an unlisted
address would read as. -/
def Memory.wfFrom : Nat → Memory → Bool
  | _, [] => true
  | lo, (k, v) :: rest =>
    decide (lo ≤ k) && decide (k < 256) && decide (v ≠ Memory.unlisted) && Memory.wfFrom (k + 1) rest

/-- The canonical form of the memory array. -/
def Memory.wf (m : Memory) : Bool := Memory.wfFrom 0 m

/-- `MemRead(addr, 1)` (00_scope.md R12, 20_memory.md R42). -/
def Memory.read (m : Memory) (a : Byte) : Byte := Memory.readAt m a.toNat

/-- `MemWrite(addr, 1, v)` (00_scope.md R12, 20_memory.md R42). -/
def Memory.write (m : Memory) (a v : Byte) : Memory := Memory.writeAt m a.toNat v

/-- Bytes written at consecutive addresses modulo 256 (20_memory.md R41). -/
def Memory.writeBytes (m : Memory) (a : Byte) : List Byte → Memory
  | [] => m
  | v :: vs => Memory.writeBytes (Memory.write m a v) (a + 1) vs

/-! ## Taking a fault, and the only way out of one -/

/-- What an instruction can raise (60_exceptions.md R181). -/
inductive Raised where
  /-- `RegRange(i)`: the operand byte `i` names no register (R182). -/
  | regRange (i : Byte)
  /-- `AluUnsupported(sel)`: the ALU has no function for the select byte `sel` (R183). -/
  | aluUnsupported (sel : Byte)
deriving DecidableEq, Repr

/-- The code `fault_cause` records (R181). -/
def Raised.code : Raised → BitVec 2
  | .regRange _ => 1
  | .aluUnsupported _ => 2

/-- The value `fault_info` records (R181). -/
def Raised.info : Raised → Byte
  | .regRange i => i
  | .aluUnsupported sel => sel

/-- Taking a fault in the state an instruction started from (R184): the run state and the three fault
registers change and nothing else; control goes to no handler. -/
def State.raise (s : State) (e : Raised) : State :=
  { s with
    runState := .faulted
    faultCause := e.code
    faultPc := s.pc
    faultInfo := e.info }

/-- No instruction returns from a fault (R185); reset is the only way out of FAULTED and HALTED
(70_reset_and_hazards.md R210). It gives every piece of state its reset value and keeps the parameters,
which are fixed at construction (10_state.md R29). -/
def State.rst (s : State) : State := { State.reset with config := s.config }

/-- End an instruction that started from `s`: what it wrote is kept, or, when it raised, discarded whole
and the fault taken (00_scope.md R12, 60_exceptions.md R184). -/
def State.commit (s : State) (r : Except Raised State) : Host.Outcome State Fault Refusal :=
  match r with
  | .ok t => .next t
  | .error e => .next (s.raise e)

/-! ## Fetch, advance and the terminal states -/

/-- `Fetch` (40_step.md R81): three reads, whatever the opcode, into the latches. -/
def State.fetch (s : State) : State :=
  { s with
    op := s.mem.read s.pc
    opA := s.mem.read (s.pc + 1)
    opB := s.mem.read (s.pc + 2) }

/-- The instruction the latches hold, or the unknown opcode (40_step.md R82). -/
def State.latched (s : State) : Decoded := decode s.config s.op s.opA s.opB

/-- Where the advance leaves PC (40_step.md R84): on by `1 + op[7:6]` of the latched opcode when the block
still runs and the sets-PC bit is 0, else where it is. -/
def State.advancedPc (s : State) : Byte :=
  if s.runState = .running ∧ setsPc s.op = false then s.pc + BitVec.ofNat 8 (instrLength s.op) else s.pc

/-- The advance at the end of a step (40_step.md R84). -/
def State.advance (s : State) : State := { s with pc := s.advancedPc }

/-- The end of a step after its handler: the advance (40_step.md R80). -/
def finishStep : Host.Outcome State Fault Refusal → Host.Outcome State Fault Refusal
  | .next t => .next t.advance
  | .fault r => .fault r
  | .refused r => .refused r

/-- A step boundary of a block that does not run: no step runs and nothing changes (40_step.md R85). A
FAULTED block whose cause is the reserved code is refused (K16, log entry 4). -/
def State.terminal (s : State) : Host.Outcome State Fault Refusal :=
  if s.runState = .faulted ∧ s.faultCause = 3 then .refused .reservedFaultCause else .next s

/-! ## The stack (42_stack.md R130) -/

/-- `StackPush(v)`: SP steps down, then the byte is written there. -/
def State.push (s : State) (v : Byte) : State :=
  { s with sp := s.sp - 1, mem := s.mem.write (s.sp - 1) v }

/-- The byte `StackPop()` returns. -/
def State.top (s : State) : Byte := s.mem.read s.sp

/-- The effect of `StackPop()`: SP steps up; the popped cell keeps its byte (R132). -/
def State.drop (s : State) : State := { s with sp := s.sp + 1 }

/-! ## PC, FL, output and halt -/

/-- `pc <- target` (00_scope.md R12). -/
def State.setPc (s : State) (target : Byte) : State := { s with pc := target }

/-- `fl <- v` (00_scope.md R12). -/
def State.setFl (s : State) (v : Byte) : State := { s with fl := v }

/-- `emit(v)`: one output event (44_load_print_halt.md R163, 10_state.md R32). -/
def State.emit (s : State) (v : Byte) : State := { s with output := s.output ++ [v] }

/-- `halt()` (44_load_print_halt.md R166). -/
def State.halt (s : State) : State := { s with runState := .halted }

end Sys2Proof.Machine
end

