-- ==== Sys2Proof/Machine/Operands.lean ====
section
/-! DEFINITION. The operand forms (30_encoding.md R67): a register operand read or written, with its range
check, and the return address of CALL. An immediate is the operand byte itself (R67, 44_load_print_halt.md
R160) and needs no operation. -/

namespace Sys2Proof.Machine

/-- The operand byte that names register `k` (R67). -/
def regByte (k : Fin 8) : Byte := BitVec.ofNat 8 k.val

/-- The value of register `k`; no register is hardwired (10_state.md R20). -/
def State.getReg (s : State) (k : Fin 8) : Byte := s.regs[k]

/-- Register `k` written; the others, SP among them, keep their values (10_state.md R20, R21). -/
def State.setReg (s : State) (k : Fin 8) (v : Byte) : State := { s with regs := s.regs.set k.val v }

/-- `x[i]` (00_scope.md R12): the register the whole operand byte names, or `RegRange(i)` from 8 on; the
byte is not masked (R67, 60_exceptions.md R182). -/
def State.readReg (s : State) (i : Byte) : Except Raised Byte :=
  if h : i.toNat < 8 then .ok (s.getReg ⟨i.toNat, h⟩) else .error (.regRange i)

/-- `x[i] <- v` (00_scope.md R12), with the same check. -/
def State.writeReg (s : State) (i v : Byte) : Except Raised State :=
  if h : i.toNat < 8 then .ok (s.setReg ⟨i.toNat, h⟩ v) else .error (.regRange i)

/-- The address of the byte after a 2-byte instruction at PC: what CALL pushes (43_control_flow.md R140)
and where a jump that is not taken goes (R143, R144). -/
def State.pcAfter2 (s : State) : Byte := s.pc + 2

end Sys2Proof.Machine
end

