-- ==== Sys2Proof/Machine/Flags.lean ====
section
/-! DEFINITION. The flags register: the three patterns CMP writes, the comparison that chooses one
(41_alu.md R104), and the test of JEQ and JNE (43_control_flow.md R143, R144). No other instruction writes
or reads FL (10_state.md R28, 41_alu.md R112). -/

namespace Sys2Proof.Machine

/-- E, equal: `0b00000001` (10_state.md R28). -/
def flEqual : Byte := 0b00000001

/-- G, greater: `0b00000010` (10_state.md R28). -/
def flGreater : Byte := 0b00000010

/-- L, less: `0b00000100` (10_state.md R28). -/
def flLess : Byte := 0b00000100

/-- The pattern CMP writes: unsigned, exactly one of the three (R104). -/
def compareFlags (va vb : Byte) : Byte :=
  if va = vb then flEqual else if vb.toNat < va.toNat then flGreater else flLess

/-- The test of JEQ and JNE: the whole byte against `0b00000001`, not one bit of it (R143; 90_conflicts.md
C6). -/
def State.lastEqual (s : State) : Bool := s.fl == flEqual

end Sys2Proof.Machine
end

