-- ==== Sys2Proof/Machine/AluUnit.lean ====
section
/-! DEFINITION. The ALU block (41_alu.md R100, R101): a select byte and two bytes in; a result, a flag value
and their write enables out; `AluUnsupported` when the select names no function. -/

namespace Sys2Proof.Machine

/-- The outputs of the ALU (R100). -/
structure AluOut where
  /-- `Y`, the result. -/
  y : Byte
  /-- `y_we`: `Y` is written to `x[a]`. -/
  yWe : Bool
  /-- `F`, the flag value. -/
  f : Byte
  /-- `fl_we`: `F` is written to FL. -/
  flWe : Bool
deriving DecidableEq, Repr

/-- A result for `x[a]`, FL untouched. DESIGN CHOICE: the disabled output `F`, whose value R100 leaves open,
is 0 (log entry 18). -/
def aluResult (y : Byte) : AluOut := { y := y, yWe := true, f := 0, flWe := false }

/-- A flag value for FL, no register written. DESIGN CHOICE: the disabled output `Y`, whose value R100
leaves open, is 0 (log entry 18). -/
def aluFlags (f : Byte) : AluOut := { y := 0, yWe := false, f := f, flWe := true }

/-- What each function computes (R102 to R110): unsigned, modulo 256 (R111). A shift takes the whole byte
as its amount, so by 8 or more it gives 0 (R109, R110). -/
def aluCompute (fn : AluFn) (va vb : Byte) : AluOut :=
  match fn with
  | .add => aluResult (va + vb)
  | .mul => aluResult (va * vb)
  | .cmp => aluFlags (compareFlags va vb)
  | .sub => aluResult (va - vb)
  | .and => aluResult (va &&& vb)
  | .or => aluResult (va ||| vb)
  | .xor => aluResult (va ^^^ vb)
  | .shl => aluResult (va <<< vb.toNat)
  | .shr => aluResult (va >>> vb.toNat)

/-- The function a select byte names in this block: one its `ALU_EXT` enables (R100, R101). -/
def aluSelect (c : Config) (sel : Byte) : Option AluFn :=
  AluFn.all.find? fun f => c.has f.mnemonic && c.aluMap.byteOf f == sel

/-- One ALU operation: the outputs, or `AluUnsupported(sel)` (R101, 60_exceptions.md R183). -/
def alu (c : Config) (sel va vb : Byte) : Except Raised AluOut :=
  match aluSelect c sel with
  | some fn => .ok (aluCompute fn va vb)
  | none => .error (.aluUnsupported sel)

end Sys2Proof.Machine
end

