-- ==== Sys2Proof/Machine/Alu.lean ====
section
/-! DEFINITION. The ALU instructions (41_alu.md R102 to R110): each reads both registers, `a` before `b`,
then takes one ALU operation with its own opcode byte as the select (R100; log entries 5 and 6). -/

namespace Sys2Proof.Machine

/-- The enabled outputs of the ALU written: `Y` to `x[a]`, `F` to FL (R100). -/
def State.writeAlu (s : State) (a : Byte) (r : AluOut) : Except Raised State :=
  let t := if r.flWe then s.setFl r.f else s
  if r.yWe then t.writeReg a r.y else .ok t

/-- The shape R100 gives every ALU instruction. -/
def State.aluInstr (s : State) (m : Mnemonic) (a b : Byte) : Host.Outcome State Fault Refusal :=
  s.commit do
    let va ← s.readReg a
    let vb ← s.readReg b
    let r ← alu s.config (s.config.opcodeMap.byteOf m) va vb
    s.writeAlu a r

/-- ADD a, b (R102). -/
def execAdd (a b : Byte) (s : State) : Host.Outcome State Fault Refusal := s.aluInstr .add a b

/-- MUL a, b (R103). -/
def execMul (a b : Byte) (s : State) : Host.Outcome State Fault Refusal := s.aluInstr .mul a b

/-- CMP a, b (R104). -/
def execCmp (a b : Byte) (s : State) : Host.Outcome State Fault Refusal := s.aluInstr .cmp a b

/-- SUB a, b (R105). -/
def execSub (a b : Byte) (s : State) : Host.Outcome State Fault Refusal := s.aluInstr .sub a b

/-- AND a, b (R106). -/
def execAnd (a b : Byte) (s : State) : Host.Outcome State Fault Refusal := s.aluInstr .and a b

/-- OR a, b (R107). -/
def execOr (a b : Byte) (s : State) : Host.Outcome State Fault Refusal := s.aluInstr .or a b

/-- XOR a, b (R108). -/
def execXor (a b : Byte) (s : State) : Host.Outcome State Fault Refusal := s.aluInstr .xor a b

/-- SHL a, b (R109). -/
def execShl (a b : Byte) (s : State) : Host.Outcome State Fault Refusal := s.aluInstr .shl a b

/-- SHR a, b (R110). -/
def execShr (a b : Byte) (s : State) : Host.Outcome State Fault Refusal := s.aluInstr .shr a b

end Sys2Proof.Machine
end

