-- ==== Sys2Proof/Machine/ControlFlow.lean ====
section
/-! DEFINITION. The control-flow instructions (43_control_flow.md R140 to R144). Each sets PC itself on
every path; the step does not advance after them (40_step.md R84). -/

namespace Sys2Proof.Machine

/-- `pc <- x[a]`: the jump JMP makes, and JEQ and JNE when taken. -/
def State.jumpTo (s : State) (a : Byte) : Except Raised State := do
  let t ← s.readReg a
  .ok (s.setPc t)

/-- CALL a (R140). -/
def execCall (a : Byte) (s : State) : Host.Outcome State Fault Refusal :=
  s.commit do
    let t ← s.readReg a
    .ok ((s.push s.pcAfter2).setPc t)

/-- RET (R141). -/
def execRet (s : State) : Host.Outcome State Fault Refusal :=
  s.commit (.ok (s.drop.setPc s.top))

/-- JMP a (R142). -/
def execJmp (a : Byte) (s : State) : Host.Outcome State Fault Refusal :=
  s.commit (s.jumpTo a)

/-- JEQ a (R143): the register byte is checked only when the jump is taken. -/
def execJeq (a : Byte) (s : State) : Host.Outcome State Fault Refusal :=
  s.commit (if s.lastEqual then s.jumpTo a else .ok (s.setPc s.pcAfter2))

/-- JNE a (R144): the register byte is checked only when the jump is taken. -/
def execJne (a : Byte) (s : State) : Host.Outcome State Fault Refusal :=
  s.commit (if s.lastEqual then .ok (s.setPc s.pcAfter2) else s.jumpTo a)

end Sys2Proof.Machine
end

