-- ==== Sys2Proof/Machine/LoadPrintHalt.lean ====
section
/-! DEFINITION. LDI, PRN and HLT (44_load_print_halt.md R160, R161, R165). -/

namespace Sys2Proof.Machine

/-- LDI a, imm (R160). -/
def execLdi (a imm : Byte) (s : State) : Host.Outcome State Fault Refusal :=
  s.commit (s.writeReg a imm)

/-- PRN a (R161). -/
def execPrn (a : Byte) (s : State) : Host.Outcome State Fault Refusal :=
  s.commit do
    let v ← s.readReg a
    .ok (s.emit v)

/-- HLT (R165). PC keeps the address of the HLT, because the step's advance needs a running block
(40_step.md R84; 90_conflicts.md C7). -/
def execHlt (s : State) : Host.Outcome State Fault Refusal :=
  s.commit (.ok s.halt)

end Sys2Proof.Machine
end

