-- ==== Sys2Proof/Machine/Stack.lean ====
section
/-! DEFINITION. The stack instructions PUSH and POP (42_stack.md R131, R132). -/

namespace Sys2Proof.Machine

/-- PUSH a (R131). -/
def execPush (a : Byte) (s : State) : Host.Outcome State Fault Refusal :=
  s.commit do
    let v ← s.readReg a
    .ok (s.push v)

/-- POP a (R132): a `RegRange` discards the step of SP. -/
def execPop (a : Byte) (s : State) : Host.Outcome State Fault Refusal :=
  s.commit (s.drop.writeReg a s.top)

end Sys2Proof.Machine
end

