-- ==== Sys2Proof/Machine/Step.lean ====
section
/-! DEFINITION. One step (40_step.md R80): fetch, dispatch, execute, advance. -/

namespace Sys2Proof.Machine

/-- `Step()` (R80) at a step boundary with `step_en = 1`. A block that does not run takes no step (R85).
An unknown opcode runs no handler: the step is the fetch and the advance, a no-op that moves PC (R86) or,
with the sets-PC bit, a real step without effect (R87). -/
def step (s : State) : Host.Outcome State Fault Refusal :=
  match s.runState with
  | .running =>
    match s.fetch.latched with
    | .instr i => finishStep (exec i s.fetch)
    | .unknown _ => finishStep (.next s.fetch)
  | .halted => s.terminal
  | .faulted => s.terminal

/-- The state with the instruction of one opcode-table word where the next step fetches: its three bytes
at PC on, the block running, and `ALU_EXT` on when the word is one of 30_encoding.md R65 (log entry 9). -/
def State.withFetchWord (s : State) (nbits w : Nat) : State :=
  { s with
    mem := s.mem.writeBytes s.pc [tableByte nbits w 0, tableByte nbits w 1, tableByte nbits w 2]
    runState := .running
    config := s.config.admitting (tableByte nbits w 0) }

end Sys2Proof.Machine
end

