-- ==== Sys2Proof/Machine/HostPort.lean ====
section
/-! DEFINITION. The host interface: the input ports (00_scope.md R8), the output ports (R9), the load of an
image (20_memory.md R47) and boot (70_reset_and_hazards.md R213), at the level of step boundaries (log
entry 8). -/

namespace Sys2Proof.Machine

/-- What the host drives at one step boundary (R8); `clk` is the boundary itself. -/
structure Inputs where
  rst : Bool
  stepEn : Bool
  ldWe : Bool
  ldAddr : Byte
  ldData : Byte
deriving DecidableEq, Repr

/-- A host write of one byte: memory changes and nothing else (R8, 40_step.md R85). -/
def State.hostWrite (s : State) (a v : Byte) : State := { s with mem := s.mem.write a v }

/-- One step boundary. `rst` wins over everything (70_reset_and_hazards.md R210); with `step_en` a step
runs and a host write is ignored (R219); otherwise a host write is honoured, in every run state (R8,
40_step.md R85). -/
def boundary (inp : Inputs) (s : State) : Host.Outcome State Fault Refusal :=
  if inp.rst then .next s.rst
  else if inp.stepEn then step s
  else if inp.ldWe then .next (s.hostWrite inp.ldAddr inp.ldData)
  else .next s

/-- The output ports (R9). -/
structure Outputs where
  /-- `out_valid` with `out_data`: the byte a PRN of this boundary emitted; `out_data` means nothing
  while `out_valid` is 0. -/
  out : Option Byte
  stepDone : Bool
  halted : Bool
  faulted : Bool
  faultCause : BitVec 2
  faultPc : Byte
  faultInfo : Byte
deriving DecidableEq, Repr

/-- The byte emitted between two states: the first the output history gained (44_load_print_halt.md
R163). -/
def emitted (before after : State) : Option Byte := (after.output.drop before.output.length).head?

/-- The outputs of a boundary that led from `before` to `after` (R9). `step_done` is pulsed by every step
that runs, a faulting or a halting one too (40_step.md R80); the fault outputs are 0 while the block is
not FAULTED. -/
def outputs (inp : Inputs) (before after : State) : Outputs :=
  let up := decide (after.runState = .faulted)
  { out := if inp.rst then none else emitted before after
    stepDone := !inp.rst && inp.stepEn && decide (before.runState = .running)
    halted := decide (after.runState = .halted)
    faulted := up
    faultCause := if up then after.faultCause else 0
    faultPc := if up then after.faultPc else 0
    faultInfo := if up then after.faultInfo else 0 }

/-- Load an image from address 0 on; one of more than 256 bytes is refused, and the block not started
(20_memory.md R47; 93_implementation_defined.md K17). -/
def State.load (s : State) (image : List Byte) : Option State :=
  if image.length ≤ 256 then some { s with mem := s.mem.writeBytes 0 image } else none

/-- Boot of a block with the parameters `c`: reset, then the image (70_reset_and_hazards.md R213); the
steps follow. -/
def launch (c : Config) (image : List Byte) : Option State :=
  { State.reset with config := c }.load image

end Sys2Proof.Machine
end

