-- ==== Sys2Proof/WellFormed.lean ====
section
/-! DEFINITION. Which instruction terms are well formed. Every operand byte has an encoding (30_encoding.md
R67), so the one check of an instruction is that the block has it; a second check says that it names
registers R0 to R7 only, the forms the assembler writes (R70). The check of a block's tables is
`Config.wf` in Sys2Proof/Decode.lean. -/

namespace Sys2Proof

/-- The block `c` decodes the instruction: an extension instruction needs `ALU_EXT` (00_scope.md R6). -/
def Instr.wf (c : Config) (i : Instr) : Bool := c.has i.mnemonic

/-- An operand byte that names a register (R67). -/
def isReg (i : Byte) : Bool := decide (i.toNat < 8)

/-- The register operand bytes of an instruction, in the order its rule uses them. -/
def Instr.regOperands : Instr → List Byte
  | .hlt | .ret => []
  | .ldi a _ => [a]
  | .prn a | .push a | .pop a | .call a | .jmp a | .jeq a | .jne a => [a]
  | .add a b | .mul a b | .cmp a b | .sub a b | .and a b | .or a b | .xor a b | .shl a b
  | .shr a b => [a, b]

/-- Every register operand is R0 to R7: the forms of R70. -/
def Instr.regsNamed (i : Instr) : Bool := i.regOperands.all isReg

end Sys2Proof
end

