-- ==== Sys2Proof/Safety.lean ====
section
/-! DEFINITION. The terms claims are stated in: the invariant of the machine, what a step or an instruction
leaves as it was, and the register an instruction may write. -/

namespace Sys2Proof.Machine

/-- What holds at reset and after every step of a block whose tables are well formed. -/
structure State.Inv (s : State) : Prop where
  /-- The decode ROM and the ALU agree (41_alu.md R101). -/
  config_wf : s.config.wf = true
  /-- Memory is in its canonical form. -/
  mem_wf : s.mem.wf = true
  /-- FL holds 0x00 or one of the three patterns of CMP (10_state.md R28). -/
  fl_pattern : s.fl ∈ [0x00, flEqual, flGreater, flLess]
  /-- The fault registers are 0 while the block is not FAULTED (60_exceptions.md R181). -/
  fault_clear : s.runState ≠ .faulted → s.faultCause = 0 ∧ s.faultPc = 0 ∧ s.faultInfo = 0
  /-- A FAULTED block records `RegRange`, the PC it stopped at and an operand byte of 8 or more (R182 to
  R184); `AluUnsupported` is not reached (R183). -/
  fault_set : s.runState = .faulted →
    s.faultCause = 1 ∧ s.faultPc = s.pc ∧ 8 ≤ s.faultInfo.toNat

/-- Equal but for the fetch latches, which a program cannot observe (10_state.md R31). -/
def State.SameButLatches (s t : State) : Prop := { s with op := t.op, opA := t.opA, opB := t.opB } = t

/-- Every register as before. -/
def SameRegs (s t : State) : Prop := ∀ k, t.getReg k = s.getReg k

/-- Every register but `j` as before. -/
def SameRegsBut (j : Fin 8) (s t : State) : Prop := ∀ k, k ≠ j → t.getReg k = s.getReg k

/-- Every address reads as before. -/
def SameMem (s t : State) : Prop := ∀ a, t.mem.read a = s.mem.read a

/-- Every address but `a0` reads as before. -/
def SameMemBut (a0 : Byte) (s t : State) : Prop := ∀ a, a ≠ a0 → t.mem.read a = s.mem.read a

/-- Run state, fault registers, latches and parameters as before. -/
def SameFixed (s t : State) : Prop :=
  t.runState = s.runState ∧ t.faultCause = s.faultCause ∧ t.faultPc = s.faultPc ∧
  t.faultInfo = s.faultInfo ∧ t.op = s.op ∧ t.opA = s.opA ∧ t.opB = s.opB ∧ t.config = s.config

/-- The frame of a handler whose only destination is register `j`. -/
def FrameReg (j : Fin 8) (s t : State) : Prop :=
  SameRegsBut j s t ∧ t.pc = s.pc ∧ t.sp = s.sp ∧ t.fl = s.fl ∧ SameMem s t ∧ t.output = s.output ∧
  SameFixed s t

/-- The frame of a handler that writes PC alone. -/
def FramePc (s t : State) : Prop :=
  SameRegs s t ∧ t.sp = s.sp ∧ t.fl = s.fl ∧ SameMem s t ∧ t.output = s.output ∧ SameFixed s t

/-- The register operand byte an instruction writes (the table of 10_state.md R22). -/
def destOf : Instr → Option Byte
  | .ldi a _ | .pop a => some a
  | .add a _ | .mul a _ | .sub a _ | .and a _ | .or a _ | .xor a _ | .shl a _ | .shr a _ => some a
  | .hlt | .prn _ | .cmp _ _ | .push _ | .call _ | .ret | .jmp _ | .jeq _ | .jne _ => none

/-- The instructions that read or write SP (10_state.md R26). -/
def usesSp : Instr → Bool
  | .push _ | .pop _ | .call _ | .ret => true
  | .hlt | .ldi _ _ | .prn _ | .add _ _ | .mul _ _ | .cmp _ _ | .jmp _ | .jeq _ | .jne _ => false
  | .sub _ _ | .and _ _ | .or _ _ | .xor _ _ | .shl _ _ | .shr _ _ => false

/-- The instruction at PC, or the unknown opcode there (40_step.md R81, R82). -/
def State.atPc (s : State) : Decoded :=
  decode s.config (s.mem.read s.pc) (s.mem.read (s.pc + 1)) (s.mem.read (s.pc + 2))

end Sys2Proof.Machine
end

