-- ==== Sys2Proof/Certificates/Slice0/Obligations.lean ====
section
/-! DEFINITION. The statements for the provers. They hold for every state and for every well-formed pair of
tables unless they name the default ones; the encoding clauses name the default map (00_scope.md R7). Rule
numbers are those of spec/. -/

open Sys2Proof Sys2Proof.Machine

/-! ## Encoding -/

/-- 30_encoding.md §2, the table of the base map: its bytes, operand roles, operand counts and sets-PC
column. Ten of the bytes are the spec's choice from general knowledge (92_eei_decisions.md D5; log entry
2). -/
def Obligations.OpcodeBytesOfTheBaseMapDecode : Prop :=
  ∀ (ext : Bool) (a b : Byte),
    let c := { Config.base with aluExt := ext }
    decode c 0x01 a b = .instr .hlt ∧ decode c 0x82 a b = .instr (.ldi a b) ∧
    decode c 0x47 a b = .instr (.prn a) ∧ decode c 0xA0 a b = .instr (.add a b) ∧
    decode c 0xA2 a b = .instr (.mul a b) ∧ decode c 0xA7 a b = .instr (.cmp a b) ∧
    decode c 0x45 a b = .instr (.push a) ∧ decode c 0x46 a b = .instr (.pop a) ∧
    decode c 0x50 a b = .instr (.call a) ∧ decode c 0x11 a b = .instr .ret ∧
    decode c 0x54 a b = .instr (.jmp a) ∧ decode c 0x55 a b = .instr (.jeq a) ∧
    decode c 0x56 a b = .instr (.jne a)

/-- 30_encoding.md §2, the table of the extension, and §3 of the same file: with `ALU_EXT = false` its six
bytes are unknown opcodes. The bytes are from general knowledge (92_eei_decisions.md D7; log entry 2). -/
def Obligations.ExtensionBytesDecodeOnlyWithAluExt : Prop :=
  ∀ a b : Byte,
    (decode .extended 0xA1 a b = .instr (.sub a b) ∧ decode .extended 0xA8 a b = .instr (.and a b) ∧
     decode .extended 0xAA a b = .instr (.or a b) ∧ decode .extended 0xAB a b = .instr (.xor a b) ∧
     decode .extended 0xAC a b = .instr (.shl a b) ∧ decode .extended 0xAD a b = .instr (.shr a b)) ∧
    ∀ op ∈ ([0xA1, 0xA8, 0xAA, 0xAB, 0xAC, 0xAD] : List Byte), decode .base op a b = .unknown op

/-- Headline: in every block with well-formed tables, the bytes of every instruction the block has,
whatever follows them in memory, decode to that instruction with every operand byte as it was. -/
def Obligations.DecodeOfEncodeIsTheInstruction : Prop :=
  ∀ (c : Config) (i : Instr) (rest : List Byte), c.wf = true → i.wf c = true →
    decodeBytes c (encode c i ++ rest) = .instr i

/-- The other direction: bytes that decode to an instruction are that instruction's encoding, followed by
bytes it does not use, and the block has the instruction. No hypothesis on the tables is needed. -/
def Obligations.EncodeOfDecodeIsTheBytes : Prop :=
  ∀ (c : Config) (op a b : Byte) (i : Instr), decode c op a b = .instr i →
    i.wf c = true ∧ encode c i ++ [a, b].drop i.operands.length = [op, a, b]

/-- 30_encoding.md §1: the opcode byte of an encoded instruction gives its length by bits 7 to 6, and its
sets-PC bit is 1 for CALL, RET, JMP, JEQ and JNE only. -/
def Obligations.OpcodeByteGivesLengthAndSetsPc : Prop :=
  ∀ (c : Config) (i : Instr), c.wf = true →
    ∃ op, (encode c i).head? = some op ∧ (encode c i).length = 1 + operandCount op ∧
      (setsPc op = true ↔
        i = .ret ∨ ∃ a, i = .call a ∨ i = .jmp a ∨ i = .jeq a ∨ i = .jne a)

/-! ## The step -/

/-- 40_step.md §1: the step of a running block latches the three bytes at PC, runs the handler of the
instruction they decode to, and, when the handler leaves the block running and bit 4 of the latched opcode
is 0, moves PC on by `1 + op[7:6]`. That the latches keep the fetched bytes when the handler faults is the
model's reading (log entry 3). -/
def Obligations.StepRunsTheDecodedInstruction : Prop :=
  ∀ (s t : State) (i : Instr), s.runState = .running → s.atPc = .instr i →
    let op := s.mem.read s.pc
    exec i { s with op := op, opA := s.mem.read (s.pc + 1), opB := s.mem.read (s.pc + 2) } = .next t →
    step s = .next { t with
      pc := if t.runState = .running ∧ setsPc op = false
        then t.pc + BitVec.ofNat 8 (1 + operandCount op) else t.pc }

/-- 40_step.md §1, the fetch: every step, whatever the opcode, latches the bytes at PC, PC + 1 and PC + 2
modulo 256, as memory stood before it: a write by the step itself does not change them. That they stay
latched after a step that faults, hangs or does nothing is the model's reading (log entry 3). -/
def Obligations.EveryStepLatchesTheBytesBeforeIt : Prop :=
  ∀ s t : State, s.runState = .running → step s = .next t →
    t.op = s.mem.read s.pc ∧ t.opA = s.mem.read (s.pc + 1) ∧ t.opB = s.mem.read (s.pc + 2)

/-- 40_step.md §2, the unknown opcode with bit 4 clear: it moves PC on by `1 + op[7:6]` and does nothing
else but latch the fetched bytes, whatever its operand bytes are. The no-op is the spec's decision D10; that
the latches hold the fetched bytes is the model's reading (log entry 3). -/
def Obligations.UnknownOpcodeOnlyAdvancesPc : Prop :=
  ∀ s : State, s.runState = .running → s.config.decodeRom (s.mem.read s.pc) = none →
    setsPc (s.mem.read s.pc) = false →
    ∃ t, step s = .next t ∧
      t.pc = s.pc + BitVec.ofNat 8 (1 + operandCount (s.mem.read s.pc)) ∧
      State.SameButLatches { s with pc := t.pc } t

/-- 40_step.md §2, the unknown opcode with bit 4 set: any number of steps later the state is the same, but
for the latches. The hang is the spec's decision D17; that the latches hold the fetched bytes is the model's
reading (log entry 3). -/
def Obligations.UnknownSetsPcOpcodeHangsForever : Prop :=
  ∀ (s : State) (n : Nat), s.runState = .running → s.config.decodeRom (s.mem.read s.pc) = none →
    setsPc (s.mem.read s.pc) = true →
    ∃ t, Host.Core.run Sys2Proof.core n s = .next t ∧ State.SameButLatches s t

/-- 40_step.md §1: HALTED and FAULTED are terminal: any number of boundaries with `step_en = 1` leaves every
piece of state as it is. FAULTED is the spec's decision D9; the reserved fault cause is left out (log entry
4; the next statement). -/
def Obligations.TerminalStatesTakeNoStep : Prop :=
  ∀ (s : State) (n : Nat), (s.runState = .halted ∨ s.runState = .faulted ∧ s.faultCause ≠ 3) →
    Host.Core.run Sys2Proof.core n s = .next s

/-- 93_implementation_defined.md K16: a block seen FAULTED with the reserved cause is refused by name. That
only a FAULTED block counts as seen with it is the model's reading (log entry 4). -/
def Obligations.ReservedFaultCauseIsRefused : Prop :=
  ∀ s : State, (∃ r, step s = .refused r) ↔ (s.runState = .faulted ∧ s.faultCause = 3)

/-- 70_reset_and_hazards.md §4: every step the block starts it finishes; no opcode, operand or state of a
running block is refused or stops the model. -/
def Obligations.RunningStepAlwaysAnswersNext : Prop :=
  ∀ s : State, s.runState = .running → ∃ t, step s = .next t

/-- 10_state.md §5: no rule reads the latches before the fetch writes them, so their values before a step,
at reset too (log entry 1), change nothing. -/
def Obligations.StepDoesNotDependOnOldLatches : Prop :=
  ∀ (s : State) (x y z : Byte), s.runState = .running →
    step { s with op := x, opA := y, opB := z } = step s

/-- 10_state.md §2: the value of PC after a step, in every case. The wrap past 0xFF is the spec's decision
D1, the unchanged PC of a faulting step its decision D9, of HLT its D13, and of an unknown opcode with bit 4
set its D17; an unknown opcode's advance is its D10, the whole-byte test of JEQ and JNE its D21 (log entry
11). -/
def Obligations.PcAfterEveryStep : Prop :=
  ∀ s t : State, s.runState = .running → s.config.wf = true → step s = .next t →
    (t.runState = .faulted → t.pc = s.pc) ∧
    (t.runState ≠ .faulted →
      match s.atPc with
      | .unknown op =>
        t.pc = if setsPc op then s.pc else s.pc + BitVec.ofNat 8 (1 + operandCount op)
      | .instr .hlt => t.pc = s.pc
      | .instr .ret => t.pc = s.mem.read s.sp
      | .instr (.call a) => ∃ j, a = regByte j ∧ t.pc = s.getReg j
      | .instr (.jmp a) => ∃ j, a = regByte j ∧ t.pc = s.getReg j
      | .instr (.jeq a) =>
        if s.fl = 0x01 then ∃ j, a = regByte j ∧ t.pc = s.getReg j else t.pc = s.pc + 2
      | .instr (.jne a) =>
        if s.fl = 0x01 then t.pc = s.pc + 2 else ∃ j, a = regByte j ∧ t.pc = s.getReg j
      | .instr i => t.pc = s.pc + BitVec.ofNat 8 (1 + i.operands.length))

/-- 40_step.md §3: a running block comes to HALTED by HLT and by nothing else. -/
def Obligations.OnlyHltHalts : Prop :=
  ∀ s t : State, s.runState = .running → step s = .next t →
    (t.runState = .halted ↔ s.atPc = .instr .hlt)

/-- 60_exceptions.md §2 and §3: a step that ends FAULTED records `RegRange`, the address of its opcode byte
and an operand byte of 8 or more, and leaves every register, PC, SP, FL, all of memory and the output as
they were: faults are precise. `AluUnsupported` is not reached. The record and the discard are the spec's
decisions D8 and D9; that the latches keep the fetched bytes is log entry 3. -/
def Obligations.FaultedStepIsPrecise : Prop :=
  ∀ s t : State, s.runState = .running → s.config.wf = true → step s = .next t →
    t.runState = .faulted →
    t.faultCause = 1 ∧ t.faultPc = s.pc ∧ 8 ≤ t.faultInfo.toNat ∧
    (t.faultInfo = s.mem.read (s.pc + 1) ∨ t.faultInfo = s.mem.read (s.pc + 2)) ∧
    SameRegs s t ∧ t.pc = s.pc ∧ t.sp = s.sp ∧ t.fl = s.fl ∧ t.mem = s.mem ∧ t.output = s.output ∧
    t.config = s.config

/-! ## Load, print and halt -/

/-- R160: LDI loads the immediate byte unchanged, into R7 as into any other register and never into SP; a
register byte of 8 or more raises `RegRange` and nothing is loaded. -/
def Obligations.LdiLoadsTheImmediate : Prop :=
  ∀ s : State,
    (∀ a imm, encode .base (.ldi a imm) = [0x82, a, imm]) ∧
    (∀ (j : Fin 8) (imm : Byte), ∃ t, exec (.ldi (regByte j) imm) s = .next t ∧
      t.getReg j = imm ∧ FrameReg j s t) ∧
    (∀ a imm : Byte, 8 ≤ a.toNat → exec (.ldi a imm) s = .next (s.raise (.regRange a)))

/-- R161: PRN emits the value of the register and changes nothing else; out of range it emits nothing. -/
def Obligations.PrnEmitsTheRegister : Prop :=
  ∀ s : State,
    (∀ a, encode .base (.prn a) = [0x47, a]) ∧
    (∀ j : Fin 8, ∃ t, exec (.prn (regByte j)) s = .next t ∧ t.output = s.output ++ [s.getReg j] ∧
      SameRegs s t ∧ t.pc = s.pc ∧ t.sp = s.sp ∧ t.fl = s.fl ∧ SameMem s t ∧ SameFixed s t) ∧
    (∀ a : Byte, 8 ≤ a.toNat → exec (.prn a) s = .next (s.raise (.regRange a)))

/-- 44_load_print_halt.md, HLT: it sets the run state to HALTED and nothing else; the step leaves PC at the
HLT although bit 4 is clear, and no step runs after it. The byte 0x01 is the spec's decision D6, HALTED with
PC kept its decision D13 (log entry 11); the latches hold the fetched bytes by log entry 3. -/
def Obligations.HltHaltsWithPcKept : Prop :=
  ∀ s : State,
    encode .base .hlt = [0x01] ∧ setsPc 0x01 = false ∧
    exec .hlt s = .next { s with runState := .halted } ∧
    (s.runState = .running → s.atPc = .instr .hlt →
      ∃ t, State.SameButLatches { s with runState := .halted } t ∧
        ∀ n, Host.Core.run Sys2Proof.core (n + 1) s = .next t)

/-! ## ALU -/

/-- 41_alu.md §2: ADD. The wrap modulo 256 is the spec's decision D1. -/
def Obligations.AddWritesTheSumModulo256 : Prop :=
  ∀ (s : State) (j k : Fin 8), s.config.wf = true →
    ∃ t, exec (.add (regByte j) (regByte k)) s = .next t ∧
      (t.getReg j).toNat = ((s.getReg j).toNat + (s.getReg k).toNat) % 256 ∧ FrameReg j s t

/-- 41_alu.md §2: MUL keeps the low 8 bits of the product. The wrap is the spec's decision D1. -/
def Obligations.MulWritesTheProductModulo256 : Prop :=
  ∀ (s : State) (j k : Fin 8), s.config.wf = true →
    ∃ t, exec (.mul (regByte j) (regByte k)) s = .next t ∧
      (t.getReg j).toNat = ((s.getReg j).toNat * (s.getReg k).toNat) % 256 ∧ FrameReg j s t

/-- R104: CMP writes exactly one of the three patterns to the whole of FL, by an unsigned comparison, and
nothing else; an operand out of range raises, `a` before `b`. -/
def Obligations.CmpWritesOnePatternToFl : Prop :=
  ∀ s : State, s.config.wf = true →
    (∀ a b, encode .base (.cmp a b) = [0xA7, a, b]) ∧
    (∀ j k : Fin 8, ∃ t, exec (.cmp (regByte j) (regByte k)) s = .next t ∧
      ((s.getReg j).toNat = (s.getReg k).toNat → t.fl = 0b00000001) ∧
      ((s.getReg k).toNat < (s.getReg j).toNat → t.fl = 0b00000010) ∧
      ((s.getReg j).toNat < (s.getReg k).toNat → t.fl = 0b00000100) ∧
      SameRegs s t ∧ t.pc = s.pc ∧ t.sp = s.sp ∧ SameMem s t ∧ t.output = s.output ∧ SameFixed s t) ∧
    (∀ a b : Byte, 8 ≤ a.toNat → exec (.cmp a b) s = .next (s.raise (.regRange a))) ∧
    (∀ a b : Byte, a.toNat < 8 → 8 ≤ b.toNat → exec (.cmp a b) s = .next (s.raise (.regRange b)))

/-- 41_alu.md §3: SUB, with `ALU_EXT`; from general knowledge (D7). -/
def Obligations.SubWritesTheDifferenceModulo256 : Prop :=
  ∀ (s : State) (j k : Fin 8), s.config.wf = true → s.config.aluExt = true →
    ∃ t, exec (.sub (regByte j) (regByte k)) s = .next t ∧
      (t.getReg j).toNat = ((s.getReg j).toNat + 256 - (s.getReg k).toNat) % 256 ∧ FrameReg j s t

/-- 41_alu.md §3: AND, OR and XOR bit by bit, with `ALU_EXT`; from general knowledge (D7). -/
def Obligations.LogicOpsWorkBitByBit : Prop :=
  ∀ (s : State) (j k : Fin 8), s.config.wf = true → s.config.aluExt = true →
    (∃ t, exec (.and (regByte j) (regByte k)) s = .next t ∧ FrameReg j s t ∧
      ∀ n, (t.getReg j).getLsbD n = ((s.getReg j).getLsbD n && (s.getReg k).getLsbD n)) ∧
    (∃ t, exec (.or (regByte j) (regByte k)) s = .next t ∧ FrameReg j s t ∧
      ∀ n, (t.getReg j).getLsbD n = ((s.getReg j).getLsbD n || (s.getReg k).getLsbD n)) ∧
    (∃ t, exec (.xor (regByte j) (regByte k)) s = .next t ∧ FrameReg j s t ∧
      ∀ n, (t.getReg j).getLsbD n = ((s.getReg j).getLsbD n != (s.getReg k).getLsbD n))

/-- 41_alu.md §3: SHL by the whole amount byte, zeros from below, the result modulo 256, so 0 from 8 on;
with `ALU_EXT`; from general knowledge (D7). -/
def Obligations.ShlShiftsByTheWholeAmount : Prop :=
  ∀ (s : State) (j k : Fin 8), s.config.wf = true → s.config.aluExt = true →
    ∃ t, exec (.shl (regByte j) (regByte k)) s = .next t ∧
      (t.getReg j).toNat = ((s.getReg j).toNat * 2 ^ (s.getReg k).toNat) % 256 ∧
      (8 ≤ (s.getReg k).toNat → t.getReg j = 0) ∧ FrameReg j s t

/-- 41_alu.md §3: SHR by the whole amount byte, zeros from above, so 0 from 8 on; with `ALU_EXT`; from
general knowledge (D7). -/
def Obligations.ShrShiftsByTheWholeAmount : Prop :=
  ∀ (s : State) (j k : Fin 8), s.config.wf = true → s.config.aluExt = true →
    ∃ t, exec (.shr (regByte j) (regByte k)) s = .next t ∧
      (t.getReg j).toNat = (s.getReg j).toNat / 2 ^ (s.getReg k).toNat ∧
      (8 ≤ (s.getReg k).toNat → t.getReg j = 0) ∧ FrameReg j s t

/-- 41_alu.md §1 and 60_exceptions.md §2: an ALU instruction whose select byte names no function the block's
ALU has, its registers being in range, raises `AluUnsupported` with that byte. That the registers are
checked first is the model's reading (log entry 6). -/
def Obligations.SelectWithoutFunctionRaisesAluUnsupported : Prop :=
  ∀ (s : State) (j k : Fin 8),
    ∀ i ∈ ([.add (regByte j) (regByte k), .mul (regByte j) (regByte k), .cmp (regByte j) (regByte k),
      .sub (regByte j) (regByte k), .and (regByte j) (regByte k), .or (regByte j) (regByte k),
      .xor (regByte j) (regByte k), .shl (regByte j) (regByte k), .shr (regByte j) (regByte k)]
      : List Instr),
    (∀ f : AluFn, s.config.has f.mnemonic = true →
      s.config.aluMap.byteOf f ≠ s.config.opcodeMap.byteOf i.mnemonic) →
    exec i s = .next (s.raise (.aluUnsupported (s.config.opcodeMap.byteOf i.mnemonic)))

/-- 41_alu.md §1 and 60_exceptions.md §2: with well-formed tables no instruction the block decodes raises
`AluUnsupported`, and none produces the reserved code. -/
def Obligations.DecodedInstructionsNeverRaiseAluUnsupported : Prop :=
  ∀ (s t : State) (i : Instr), s.config.wf = true → i.wf s.config = true → exec i s = .next t →
    t.faultCause = s.faultCause ∨ t.faultCause = 1

/-! ## Register range -/

/-- 60_exceptions.md §2 and §3: which instruction raises `RegRange` for which operand byte, `a` before `b`;
a jump that is not taken raises nothing (43_control_flow.md). The fault is the spec's decision D8, the
order its decision D20. -/
def Obligations.RegisterByteOutOfRangeRaises : Prop :=
  ∀ (s : State) (a b : Byte),
    (8 ≤ a.toNat →
      (∀ i ∈ ([.ldi a b, .prn a, .add a b, .mul a b, .cmp a b, .push a, .pop a, .call a, .jmp a, .sub a b,
        .and a b, .or a b, .xor a b, .shl a b, .shr a b] : List Instr),
        exec i s = .next (s.raise (.regRange a))) ∧
      (s.fl = 0x01 → exec (.jeq a) s = .next (s.raise (.regRange a)) ∧
        ∃ t, exec (.jne a) s = .next t ∧ t.runState = s.runState) ∧
      (s.fl ≠ 0x01 → exec (.jne a) s = .next (s.raise (.regRange a)) ∧
        ∃ t, exec (.jeq a) s = .next t ∧ t.runState = s.runState)) ∧
    (a.toNat < 8 → 8 ≤ b.toNat →
      ∀ i ∈ ([.add a b, .mul a b, .cmp a b, .sub a b, .and a b, .or a b, .xor a b, .shl a b, .shr a b]
        : List Instr),
        exec i s = .next (s.raise (.regRange b)))

/-! ## Stack -/

/-- R131: PUSH writes the register below SP, where SP then points, wrapping at 0x00; out of range nothing
changes but the fault. The step that runs it moves PC on by 2 even when the write lands on its own bytes. -/
def Obligations.PushStoresTheRegisterBelowSp : Prop :=
  ∀ s : State,
    (∀ a, encode .base (.push a) = [0x45, a]) ∧
    (∀ j : Fin 8, ∃ t, exec (.push (regByte j)) s = .next t ∧ t.sp = s.sp - 1 ∧
      t.mem.read (s.sp - 1) = s.getReg j ∧ SameMemBut (s.sp - 1) s t ∧ SameRegs s t ∧
      t.fl = s.fl ∧ t.pc = s.pc ∧ t.output = s.output ∧ SameFixed s t) ∧
    (∀ a : Byte, 8 ≤ a.toNat → exec (.push a) s = .next (s.raise (.regRange a))) ∧
    (s.runState = .running → s.config.opcodeMap = .ls8 → s.mem.read s.pc = 0x45 →
      ∀ j : Fin 8, s.mem.read (s.pc + 1) = regByte j →
        ∃ t, step s = .next t ∧ t.pc = s.pc + 2 ∧ t.sp = s.sp - 1 ∧ t.mem.read (s.sp - 1) = s.getReg j)

/-- R132: POP reads the byte at SP into the register and steps SP up, wrapping at 0xFF; the popped cell
keeps its byte; out of range SP does not move. -/
def Obligations.PopLoadsTheTopOfStack : Prop :=
  ∀ s : State,
    (∀ a, encode .base (.pop a) = [0x46, a]) ∧
    (∀ j : Fin 8, ∃ t, exec (.pop (regByte j)) s = .next t ∧ t.getReg j = s.mem.read s.sp ∧
      t.sp = s.sp + 1 ∧ SameRegsBut j s t ∧ SameMem s t ∧
      t.fl = s.fl ∧ t.pc = s.pc ∧ t.output = s.output ∧ SameFixed s t) ∧
    (∀ a : Byte, 8 ≤ a.toNat → exec (.pop a) s = .next (s.raise (.regRange a)))

/-- 42_stack.md, the PUSH and POP pair: after a PUSH in `s` and any code `t` to `u` that leaves SP and the
pushed cell as it found them, a POP into any register gives the pushed value and the SP from before. -/
def Obligations.PopAfterPushGivesThePushedValue : Prop :=
  ∀ (s t u v : State) (j k : Fin 8), exec (.push (regByte j)) s = .next t →
    u.sp = t.sp → u.mem.read t.sp = t.mem.read t.sp → exec (.pop (regByte k)) u = .next v →
    v.getReg k = s.getReg j ∧ v.sp = s.sp

/-! ## Control flow -/

/-- R140: CALL pushes PC + 2 modulo 256 and jumps to the register; out of range the push is discarded. -/
def Obligations.CallPushesReturnAddressAndJumps : Prop :=
  ∀ s : State,
    (∀ a, encode .base (.call a) = [0x50, a]) ∧ setsPc 0x50 = true ∧
    (∀ j : Fin 8, ∃ t, exec (.call (regByte j)) s = .next t ∧ t.pc = s.getReg j ∧ t.sp = s.sp - 1 ∧
      t.mem.read (s.sp - 1) = s.pc + 2 ∧ SameMemBut (s.sp - 1) s t ∧ SameRegs s t ∧
      t.fl = s.fl ∧ t.output = s.output ∧ SameFixed s t) ∧
    (∀ a : Byte, 8 ≤ a.toNat → exec (.call a) s = .next (s.raise (.regRange a)))

/-- R141: RET takes PC from the top of the stack and steps SP up. -/
def Obligations.RetTakesPcFromTheStack : Prop :=
  ∀ s : State,
    encode .base .ret = [0x11] ∧ setsPc 0x11 = true ∧
    ∃ t, exec .ret s = .next t ∧ t.pc = s.mem.read s.sp ∧ t.sp = s.sp + 1 ∧ SameMem s t ∧
      SameRegs s t ∧ t.fl = s.fl ∧ t.output = s.output ∧ SameFixed s t

/-- R142: JMP sets PC to the register. -/
def Obligations.JmpSetsPcToTheRegister : Prop :=
  ∀ s : State,
    (∀ a, encode .base (.jmp a) = [0x54, a]) ∧ setsPc 0x54 = true ∧
    (∀ j : Fin 8, ∃ t, exec (.jmp (regByte j)) s = .next t ∧ t.pc = s.getReg j ∧ FramePc s t) ∧
    (∀ a : Byte, 8 ≤ a.toNat → exec (.jmp a) s = .next (s.raise (.regRange a)))

/-- 43_control_flow.md, JEQ: it jumps when the whole byte FL is `0b00000001`, and else goes on at PC + 2
without a look at its register byte. The whole-byte test is the spec's decision D21 (log entry 11). -/
def Obligations.JeqJumpsExactlyOnEqual : Prop :=
  ∀ s : State,
    (∀ a, encode .base (.jeq a) = [0x55, a]) ∧ setsPc 0x55 = true ∧
    (s.fl = 0b00000001 →
      (∀ j : Fin 8, ∃ t, exec (.jeq (regByte j)) s = .next t ∧ t.pc = s.getReg j ∧ FramePc s t) ∧
      (∀ a : Byte, 8 ≤ a.toNat → exec (.jeq a) s = .next (s.raise (.regRange a)))) ∧
    (s.fl ≠ 0b00000001 →
      ∀ a : Byte, ∃ t, exec (.jeq a) s = .next t ∧ t.pc = s.pc + 2 ∧ FramePc s t)

/-- 43_control_flow.md, JNE, the mirror of JEQ. The whole-byte test is the spec's decision D21 (log entry
11). -/
def Obligations.JneJumpsExactlyOnNotEqual : Prop :=
  ∀ s : State,
    (∀ a, encode .base (.jne a) = [0x56, a]) ∧ setsPc 0x56 = true ∧
    (s.fl ≠ 0b00000001 →
      (∀ j : Fin 8, ∃ t, exec (.jne (regByte j)) s = .next t ∧ t.pc = s.getReg j ∧ FramePc s t) ∧
      (∀ a : Byte, 8 ≤ a.toNat → exec (.jne a) s = .next (s.raise (.regRange a)))) ∧
    (s.fl = 0b00000001 →
      ∀ a : Byte, ∃ t, exec (.jne a) s = .next t ∧ t.pc = s.pc + 2 ∧ FramePc s t)

/-- 43_control_flow.md, nested calls: after a CALL in `s` and any code `t` to `u` that leaves SP and the
return-address cell as it found them, a RET resumes at the CALL's address + 2 with the SP from before. -/
def Obligations.RetAfterCallResumesBehindTheCall : Prop :=
  ∀ (s t u v : State) (j : Fin 8), exec (.call (regByte j)) s = .next t →
    u.sp = t.sp → u.mem.read t.sp = t.mem.read t.sp → exec .ret u = .next v →
    v.pc = s.pc + 2 ∧ v.sp = s.sp

/-! ## The whole machine -/

/-- 41_alu.md §4: only CMP writes FL. For the extension instructions this is the spec's decision D7 (log
entry 2). -/
def Obligations.OnlyCmpWritesFl : Prop :=
  ∀ (s t : State) (i : Instr), s.config.wf = true → exec i s = .next t → t.fl ≠ s.fl →
    ∃ a b, i = .cmp a b

/-- 41_alu.md §4, 10_state.md §4: only JEQ and JNE read FL. Another value of FL makes any other instruction
do the same, and ends up where CMP has not overwritten it. -/
def Obligations.OnlyJeqAndJneReadFl : Prop :=
  ∀ (s t : State) (i : Instr) (x : Byte), (∀ a, i ≠ .jeq a ∧ i ≠ .jne a) → exec i s = .next t →
    ∃ y, exec i { s with fl := x } = .next { t with fl := y } ∧ (y = x ∨ y = t.fl)

/-- 10_state.md §3: only PUSH, POP, CALL and RET read or write SP. Every other instruction leaves it, and
does the same with another value in it. -/
def Obligations.OnlyStackInstructionsTouchSp : Prop :=
  ∀ (s t : State) (i : Instr) (x : Byte), usesSp i = false → exec i s = .next t →
    t.sp = s.sp ∧ exec i { s with sp := x } = .next { t with sp := x }

/-- 10_state.md §1: R7 and SP are independent. No instruction that writes R7 takes SP along, and none that moves SP
takes R7 along; only their reset values agree. -/
def Obligations.R7AndSpAreIndependent : Prop :=
  State.reset.getReg 7 = 0xF4 ∧ State.reset.sp = 0xF4 ∧
  ∀ (s t : State) (i : Instr), s.config.wf = true → exec i s = .next t →
    (t.getReg 7 ≠ s.getReg 7 → destOf i = some (regByte 7)) ∧
    (t.sp ≠ s.sp → usesSp i = true) ∧
    ∀ (j : Fin 8), i = .pop (regByte j) → t.sp = s.sp + 1

/-- 10_state.md §1, the table of register accesses: an instruction changes no register but the destination
the table gives it, so never more than one. -/
def Obligations.InstructionsWriteOnlyTheirDestinationRegister : Prop :=
  ∀ (s t : State) (i : Instr) (k : Fin 8), s.config.wf = true → exec i s = .next t →
    t.getReg k ≠ s.getReg k → destOf i = some (regByte k)

/-- 20_memory.md §1, the table of memory accesses: only PUSH and CALL write memory, one byte, where SP
points after the decrement. -/
def Obligations.OnlyPushAndCallWriteMemory : Prop :=
  ∀ (s t : State) (i : Instr) (a : Byte), exec i s = .next t → t.mem.read a ≠ s.mem.read a →
    a = s.sp - 1 ∧ ∃ r, i = .push r ∨ i = .call r

/-- 44_load_print_halt.md, PRN and the order of outputs: a step adds at most one byte at the end of the
output history, and only a PRN adds one; nothing emitted before is lost. -/
def Obligations.OnlyPrnAppendsToTheOutput : Prop :=
  ∀ s t : State, step s = .next t →
    t.output = s.output ∨
      s.runState = .running ∧
        ∃ j : Fin 8, s.atPc = .instr (.prn (regByte j)) ∧ t.output = s.output ++ [s.getReg j]

/-- 10_state.md §5 and 70_reset_and_hazards.md §3: no handler writes the latches or the parameters, and no
step changes the decode ROM's parameters. -/
def Obligations.HandlersKeepLatchesAndParameters : Prop :=
  (∀ (s t : State) (i : Instr), exec i s = .next t →
    t.op = s.op ∧ t.opA = s.opA ∧ t.opB = s.opB ∧ t.config = s.config) ∧
  ∀ s t : State, step s = .next t → t.config = s.config

/-- 20_memory.md §4: what a PUSH wrote is what the next fetch of that address reads; nothing has to be
flushed. The fetched byte is read off the latch after the step, also where that step faults, hangs or does
nothing: the model's reading (log entry 3). -/
def Obligations.PushedByteIsWhatTheNextFetchReads : Prop :=
  ∀ (s t u : State) (j : Fin 8), exec (.push (regByte j)) s = .next t →
    t.runState = .running → step { t with pc := s.sp - 1 } = .next u → u.op = s.getReg j

/-! ## Reset and the invariant -/

/-- 10_state.md §6, 20_memory.md §2 and 70_reset_and_hazards.md §2: a block that boots with an image of at
most 256 bytes starts with every piece of state whose reset value the spec gives at that value, the image at
address 0 and 0x00 behind it, and with no image in `State.reset`. R0 to R6, FL, memory and the fault
registers are at the values of the spec's decisions D2, D3, D4 and D9; the latches are left out, their value
is the model's (log entry 1). -/
def Obligations.BootStartsFromTheResetValues : Prop :=
  launch .base [] = some State.reset ∧
  ∀ (c : Config) (image : List Byte), image.length ≤ 256 →
    ∃ t, launch c image = some t ∧ t.config = c ∧
      (∀ k : Fin 8, t.getReg k = if k = 7 then 0xF4 else 0x00) ∧ t.pc = 0x00 ∧ t.sp = 0xF4 ∧
      t.fl = 0x00 ∧ t.runState = .running ∧ t.faultCause = 0 ∧ t.faultPc = 0 ∧ t.faultInfo = 0 ∧
      t.output = [] ∧ t.mem.wf = true ∧
      (∀ (n : Nat) (h : n < image.length), t.mem.read (BitVec.ofNat 8 n) = image[n]) ∧
      ∀ a : Byte, image.length ≤ a.toNat → t.mem.read a = 0x00

/-- The invariant holds at reset. -/
def Obligations.ResetMeetsTheInvariant : Prop := State.reset.Inv

/-- Headline: from every state that meets the invariant, a step gives a state that meets it: memory stays
canonical, FL one of its four values, the fault registers 0 or a precise `RegRange` record. -/
def Obligations.EveryStepKeepsTheInvariant : Prop :=
  ∀ s t : State, s.Inv → step s = .next t → t.Inv

/-- The canonical form is canonical: two well-formed memories that read alike are the same list. -/
def Obligations.MemoriesThatReadAlikeAreEqual : Prop :=
  ∀ m n : Memory, m.wf = true → n.wf = true → (∀ a, m.read a = n.read a) → m = n

/-! ## Host interface -/

/-- 70_reset_and_hazards.md §1: `rst` at a boundary gives every piece of state its reset value, from every
state, whatever else the host drives; the parameters stay. The latches are left out (log entry 1). -/
def Obligations.RstGivesTheResetStateFromAnyState : Prop :=
  ∀ (s : State) (inp : Inputs), inp.rst = true →
    ∃ t, boundary inp s = .next t ∧ t.config = s.config ∧
      (∀ k : Fin 8, t.getReg k = if k = 7 then 0xF4 else 0x00) ∧ t.pc = 0x00 ∧ t.sp = 0xF4 ∧
      t.fl = 0x00 ∧ t.runState = .running ∧ t.faultCause = 0 ∧ t.faultPc = 0 ∧ t.faultInfo = 0 ∧
      (∀ a, t.mem.read a = 0x00) ∧ t.output = [] ∧
      (outputs inp s t).out = none ∧ (outputs inp s t).stepDone = false ∧
      (outputs inp s t).halted = false ∧ (outputs inp s t).faulted = false

/-- 00_scope.md §4 and 70_reset_and_hazards.md §4: with `step_en = 1` a host write is ignored; with
`step_en = 0` it changes the one byte and nothing else, in every run state. -/
def Obligations.HostWritesOnlyBetweenSteps : Prop :=
  ∀ (s : State) (inp : Inputs), inp.rst = false →
    (inp.stepEn = true → boundary inp s = step s) ∧
    (inp.stepEn = false → inp.ldWe = true →
      ∃ m, boundary inp s = .next { s with mem := m } ∧ m.read inp.ldAddr = inp.ldData ∧
        ∀ a, a ≠ inp.ldAddr → m.read a = s.mem.read a) ∧
    (inp.stepEn = false → inp.ldWe = false → boundary inp s = .next s)

/-- 20_memory.md §2: loading puts byte `i` of the image at address `i`, leaves the cells behind it and all
other state alone, and refuses an image of more than 256 bytes. -/
def Obligations.LoadPutsTheImageAtAddressZero : Prop :=
  ∀ (s : State) (image : List Byte),
    (image.length ≤ 256 → ∃ m, s.load image = some { s with mem := m } ∧
      (∀ (n : Nat) (h : n < image.length), m.read (BitVec.ofNat 8 n) = image[n]) ∧
      ∀ a : Byte, image.length ≤ a.toNat → m.read a = s.mem.read a) ∧
    (256 < image.length → s.load image = none)

/-- 00_scope.md §4, the output ports of a step: `out_valid` with the register's value exactly when the step
is a PRN that emits, `step_done` for every step that runs, and the fault outputs 0 unless FAULTED. -/
def Obligations.OutputPortsShowTheStep : Prop :=
  ∀ (s t : State) (inp : Inputs), inp.rst = false → inp.stepEn = true → boundary inp s = .next t →
    (∀ v, (outputs inp s t).out = some v ↔
      s.runState = .running ∧ ∃ j : Fin 8, s.atPc = .instr (.prn (regByte j)) ∧ v = s.getReg j) ∧
    ((outputs inp s t).stepDone = true ↔ s.runState = .running) ∧
    ((outputs inp s t).halted = true ↔ t.runState = .halted) ∧
    ((outputs inp s t).faulted = true ↔ t.runState = .faulted) ∧
    (t.runState ≠ .faulted → (outputs inp s t).faultCause = 0 ∧ (outputs inp s t).faultPc = 0 ∧
      (outputs inp s t).faultInfo = 0) ∧
    (t.runState = .faulted → (outputs inp s t).faultCause = t.faultCause ∧
      (outputs inp s t).faultPc = t.faultPc ∧ (outputs inp s t).faultInfo = t.faultInfo)
end

