-- ==== Sys2Proof/Laws/Decode.lean ====
section
/-! SUPPORT. What well-formed tables give: each byte names one instruction, the decode ROM finds it, and the
ALU answers to it. -/

namespace Sys2Proof.Laws.Decode

open Sys2Proof

theorem mem_all (m : Mnemonic) : m ∈ Mnemonic.all := by cases m <;> decide

theorem aluFn_mem_all (f : AluFn) : f ∈ AluFn.all := by cases f <;> decide

theorem base_wf : Config.base.wf = true := by decide

theorem extended_wf : Config.extended.wf = true := by decide

/-- The three checks of `Config.wf`. -/
theorem wf_parts {c : Config} (h : c.wf = true) :
    (Mnemonic.all.map c.opcodeMap.byteOf).Nodup ∧
    (∀ m : Mnemonic, operandCount (c.opcodeMap.byteOf m) = m.operandCount ∧
      setsPc (c.opcodeMap.byteOf m) = m.setsPc) ∧
    (∀ f : AluFn, c.aluMap.byteOf f = c.opcodeMap.byteOf f.mnemonic) := by
  simp only [Config.wf, Bool.and_eq_true, decide_eq_true_eq, List.all_eq_true, beq_iff_eq] at h
  exact ⟨h.1.1, fun m => h.1.2 m (mem_all m), fun f => h.2 f (aluFn_mem_all f)⟩

theorem operandCount_byteOf {c : Config} (h : c.wf = true) (m : Mnemonic) :
    operandCount (c.opcodeMap.byteOf m) = m.operandCount := ((wf_parts h).2.1 m).1

theorem setsPc_byteOf {c : Config} (h : c.wf = true) (m : Mnemonic) :
    setsPc (c.opcodeMap.byteOf m) = m.setsPc := ((wf_parts h).2.1 m).2

theorem byteOf_injective {c : Config} (h : c.wf = true) {m n : Mnemonic}
    (hmn : c.opcodeMap.byteOf m = c.opcodeMap.byteOf n) : m = n :=
  List.inj_on_of_nodup_map (wf_parts h).1 (mem_all m) (mem_all n) hmn

/-- What an entry of the decode ROM says, whatever the tables. -/
theorem decodeRom_some {c : Config} {op : Byte} {m : Mnemonic} (h : c.decodeRom op = some m) :
    c.has m = true ∧ c.opcodeMap.byteOf m = op := by
  simpa using List.find?_some h

theorem decodeRom_byteOf {c : Config} (h : c.wf = true) {m : Mnemonic} (hm : c.has m = true) :
    c.decodeRom (c.opcodeMap.byteOf m) = some m := by
  cases hr : c.decodeRom (c.opcodeMap.byteOf m) with
  | none =>
    have := List.find?_eq_none.mp hr m (mem_all m)
    simp [hm] at this
  | some n => exact congrArg some (byteOf_injective h (decodeRom_some hr).2)

/-- The ALU's select finds the function of the instruction whose byte it is. -/
theorem aluSelect_byteOf {c : Config} (h : c.wf = true) (f : AluFn) (hf : c.has f.mnemonic = true) :
    Machine.aluSelect c (c.opcodeMap.byteOf f.mnemonic) = some f := by
  cases hr : Machine.aluSelect c (c.opcodeMap.byteOf f.mnemonic) with
  | none =>
    have := List.find?_eq_none.mp hr f (aluFn_mem_all f)
    simp [hf, (wf_parts h).2.2 f] at this
  | some g =>
    have hg : c.has g.mnemonic = true ∧ c.aluMap.byteOf g = c.opcodeMap.byteOf f.mnemonic := by
      simpa using List.find?_some hr
    have hmn : g.mnemonic = f.mnemonic := byteOf_injective h (((wf_parts h).2.2 g).symm.trans hg.2)
    cases g <;> cases f <;> first | rfl | cases hmn

/-- An unextended instruction is in every block. -/
theorem has_base (c : Config) {m : Mnemonic} (h : m.isExt = false) : c.has m = true := by
  simp [Config.has, h]

theorem has_of_aluExt {c : Config} (h : c.aluExt = true) (m : Mnemonic) : c.has m = true := by
  simp [Config.has, h]

/-- What an `instr` answer of the decoder says. -/
theorem decode_instr {c : Config} {op a b : Byte} {i : Instr} (h : decode c op a b = .instr i) :
    ∃ m, c.decodeRom op = some m ∧ i = m.build a b := by
  unfold decode at h
  split at h
  · rename_i m hm
    exact ⟨m, hm, (Decoded.instr.inj h).symm⟩
  · cases h

theorem mnemonic_build (m : Mnemonic) (a b : Byte) : (m.build a b).mnemonic = m := by cases m <;> rfl

/-- A decoded instruction is one the block has, under the byte that was decoded. -/
theorem decode_instr_mnemonic {c : Config} {op a b : Byte} {i : Instr}
    (h : decode c op a b = .instr i) : c.has i.mnemonic = true ∧ c.opcodeMap.byteOf i.mnemonic = op := by
  obtain ⟨m, hm, rfl⟩ := decode_instr h
  rw [mnemonic_build]
  exact decodeRom_some hm

theorem decode_unknown {c : Config} {op a b x : Byte} (h : decode c op a b = .unknown x) :
    c.decodeRom op = none ∧ x = op := by
  unfold decode at h
  split at h
  · cases h
  · rename_i hn
    exact ⟨hn, (Decoded.unknown.inj h).symm⟩

theorem decode_of_rom_none {c : Config} {op : Byte} (a b : Byte) (h : c.decodeRom op = none) :
    decode c op a b = .unknown op := by
  simp [decode, h]

end Sys2Proof.Laws.Decode
end

