-- ==== Sys2Proof/Laws/Memory.lean ====
section
/-! SUPPORT. The laws of memory: a read after a write, and the canonical form, which every memory operation
keeps. -/

namespace Sys2Proof.Machine.Memory

/-! ## Reading after a write -/

@[simp] theorem readAt_nil (a : Nat) : readAt [] a = unlisted := rfl

@[simp] theorem read_nil (a : Byte) : read [] a = unlisted := rfl

theorem readAt_eraseAt (m : Memory) (a b : Nat) :
    readAt (eraseAt m a) b = if b = a then unlisted else readAt m b := by
  induction m with
  | nil => simp [eraseAt]
  | cons c rest ih =>
    obtain ⟨k, w⟩ := c
    by_cases hk : k = a
    · subst hk
      have hdrop : eraseAt ((k, w) :: rest) k = eraseAt rest k := by simp [eraseAt]
      rw [hdrop, ih]
      by_cases hb : b = k
      · simp [hb]
      · simp [hb, readAt, Ne.symm hb]
    · have hkeep : eraseAt ((k, w) :: rest) a = (k, w) :: eraseAt rest a := by
        simp [eraseAt, hk]
      rw [hkeep]
      by_cases hb : k = b
      · subst hb
        simp [readAt, hk]
      · simp [readAt, hb, ih]

theorem readAt_insertAt_same (m : Memory) (a : Nat) (v : Byte) (h : ∀ c ∈ m, c.1 ≠ a) :
    readAt (insertAt m a v) a = v := by
  induction m with
  | nil => simp [insertAt, readAt]
  | cons c rest ih =>
    obtain ⟨k, w⟩ := c
    have hk : k ≠ a := h (k, w) (by simp)
    have hrest : ∀ c ∈ rest, c.1 ≠ a := fun c hc => h c (by simp [hc])
    by_cases hlt : a < k
    · simp [insertAt, hlt, readAt]
    · simp [insertAt, hlt, readAt, hk, ih hrest]

theorem readAt_insertAt_other (m : Memory) (a b : Nat) (v : Byte) (h : b ≠ a) :
    readAt (insertAt m a v) b = readAt m b := by
  induction m with
  | nil => simp [insertAt, readAt, Ne.symm h]
  | cons c rest ih =>
    obtain ⟨k, w⟩ := c
    by_cases hlt : a < k
    · simp [insertAt, hlt, readAt, Ne.symm h]
    · simp [insertAt, hlt, readAt, ih]

theorem ne_of_mem_eraseAt (m : Memory) (a : Nat) : ∀ c ∈ eraseAt m a, c.1 ≠ a := by
  intro c hc
  simpa [eraseAt] using (List.mem_filter.mp hc).2

theorem readAt_writeAt (m : Memory) (a b : Nat) (v : Byte) :
    readAt (writeAt m a v) b = if b = a then v else readAt m b := by
  unfold writeAt
  by_cases hv : v = unlisted
  · simp [hv, readAt_eraseAt]
  · by_cases hb : b = a
    · subst hb
      simp [hv, readAt_insertAt_same _ _ _ (ne_of_mem_eraseAt m b)]
    · simp [hv, hb, readAt_insertAt_other, readAt_eraseAt]

/-- A read after a write gives the byte written, and every other address reads as before (20_memory.md
R46). -/
theorem read_write (m : Memory) (a b v : Byte) :
    (m.write a v).read b = if b = a then v else m.read b := by
  simp [read, write, readAt_writeAt, BitVec.toNat_inj]

@[simp] theorem read_write_same (m : Memory) (a v : Byte) : (m.write a v).read a = v := by
  simp [read_write]

theorem read_write_of_ne (m : Memory) (a b v : Byte) (h : b ≠ a) :
    (m.write a v).read b = m.read b := by
  simp [read_write, h]

/-! ## The canonical form -/

theorem wfFrom_mono {lo lo' : Nat} {m : Memory} (h : wfFrom lo m = true) (hle : lo' ≤ lo) :
    wfFrom lo' m = true := by
  cases m with
  | nil => rfl
  | cons c rest =>
    simp only [wfFrom, Bool.and_eq_true, decide_eq_true_eq] at h ⊢
    exact ⟨⟨⟨hle.trans h.1.1.1, h.1.1.2⟩, h.1.2⟩, h.2⟩

theorem wfFrom_eraseAt {lo : Nat} {m : Memory} (a : Nat) (h : wfFrom lo m = true) :
    wfFrom lo (eraseAt m a) = true := by
  induction m generalizing lo with
  | nil => rfl
  | cons c rest ih =>
    obtain ⟨k, w⟩ := c
    simp only [wfFrom, Bool.and_eq_true, decide_eq_true_eq] at h
    obtain ⟨⟨⟨hlo, hk⟩, hw⟩, hrest⟩ := h
    by_cases hka : k = a
    · have hdrop : eraseAt ((k, w) :: rest) a = eraseAt rest a := by simp [eraseAt, hka]
      rw [hdrop]
      exact ih (wfFrom_mono hrest (by omega))
    · have hkeep : eraseAt ((k, w) :: rest) a = (k, w) :: eraseAt rest a := by
        simp [eraseAt, hka]
      rw [hkeep]
      simp only [wfFrom, Bool.and_eq_true, decide_eq_true_eq]
      exact ⟨⟨⟨hlo, hk⟩, hw⟩, ih hrest⟩

theorem wfFrom_insertAt {lo : Nat} {m : Memory} {a : Nat} {v : Byte} (h : wfFrom lo m = true)
    (hne : ∀ c ∈ m, c.1 ≠ a) (hlo : lo ≤ a) (ha : a < 256) (hv : v ≠ unlisted) :
    wfFrom lo (insertAt m a v) = true := by
  induction m generalizing lo with
  | nil => simp [insertAt, wfFrom, hlo, ha, hv]
  | cons c rest ih =>
    obtain ⟨k, w⟩ := c
    simp only [wfFrom, Bool.and_eq_true, decide_eq_true_eq] at h
    obtain ⟨⟨⟨hk, hk256⟩, hw⟩, hrest⟩ := h
    have hka : k ≠ a := hne (k, w) (by simp)
    by_cases hlt : a < k
    · simp only [insertAt, hlt, if_true, wfFrom, Bool.and_eq_true, decide_eq_true_eq]
      exact ⟨⟨⟨hlo, ha⟩, hv⟩, ⟨⟨by omega, hk256⟩, hw⟩, hrest⟩
    · simp only [insertAt, hlt, if_false, wfFrom, Bool.and_eq_true, decide_eq_true_eq]
      exact ⟨⟨⟨hk, hk256⟩, hw⟩, ih hrest (fun c hc => hne c (by simp [hc])) (by omega)⟩

/-- Every write keeps the canonical form. -/
theorem wf_write {m : Memory} (a v : Byte) (h : m.wf = true) : (m.write a v).wf = true := by
  unfold write writeAt wf
  split
  · exact wfFrom_eraseAt _ h
  · rename_i hv
    exact wfFrom_insertAt (wfFrom_eraseAt _ h) (ne_of_mem_eraseAt m _) (Nat.zero_le _) a.isLt hv

theorem wf_writeBytes {m : Memory} (a : Byte) (bs : List Byte) (h : m.wf = true) :
    (m.writeBytes a bs).wf = true := by
  induction bs generalizing m a with
  | nil => exact h
  | cons v vs ih => exact ih (a + 1) (wf_write a v h)

end Sys2Proof.Machine.Memory
end

