-- ==== Sys2Proof/Laws/State.lean ====
section
/-! SUPPORT. One lemma per field per update of the state, so that no proof unfolds a record update. -/

namespace Sys2Proof.Machine

/-! ## `raise` -/

@[simp] theorem State.raise_regs (s : State) (e : Raised) : (s.raise e).regs = s.regs := rfl
@[simp] theorem State.raise_pc (s : State) (e : Raised) : (s.raise e).pc = s.pc := rfl
@[simp] theorem State.raise_sp (s : State) (e : Raised) : (s.raise e).sp = s.sp := rfl
@[simp] theorem State.raise_fl (s : State) (e : Raised) : (s.raise e).fl = s.fl := rfl
@[simp] theorem State.raise_runState (s : State) (e : Raised) : (s.raise e).runState = .faulted := rfl
@[simp] theorem State.raise_faultCause (s : State) (e : Raised) : (s.raise e).faultCause = e.code := rfl
@[simp] theorem State.raise_faultPc (s : State) (e : Raised) : (s.raise e).faultPc = s.pc := rfl
@[simp] theorem State.raise_faultInfo (s : State) (e : Raised) : (s.raise e).faultInfo = e.info := rfl
@[simp] theorem State.raise_op (s : State) (e : Raised) : (s.raise e).op = s.op := rfl
@[simp] theorem State.raise_opA (s : State) (e : Raised) : (s.raise e).opA = s.opA := rfl
@[simp] theorem State.raise_opB (s : State) (e : Raised) : (s.raise e).opB = s.opB := rfl
@[simp] theorem State.raise_mem (s : State) (e : Raised) : (s.raise e).mem = s.mem := rfl
@[simp] theorem State.raise_output (s : State) (e : Raised) : (s.raise e).output = s.output := rfl
@[simp] theorem State.raise_config (s : State) (e : Raised) : (s.raise e).config = s.config := rfl
@[simp] theorem State.raise_getReg (s : State) (e : Raised) (k : Fin 8) : (s.raise e).getReg k = s.getReg k := rfl

/-! ## `fetch` -/

@[simp] theorem State.fetch_regs (s : State) : (s.fetch).regs = s.regs := rfl
@[simp] theorem State.fetch_pc (s : State) : (s.fetch).pc = s.pc := rfl
@[simp] theorem State.fetch_sp (s : State) : (s.fetch).sp = s.sp := rfl
@[simp] theorem State.fetch_fl (s : State) : (s.fetch).fl = s.fl := rfl
@[simp] theorem State.fetch_runState (s : State) : (s.fetch).runState = s.runState := rfl
@[simp] theorem State.fetch_faultCause (s : State) : (s.fetch).faultCause = s.faultCause := rfl
@[simp] theorem State.fetch_faultPc (s : State) : (s.fetch).faultPc = s.faultPc := rfl
@[simp] theorem State.fetch_faultInfo (s : State) : (s.fetch).faultInfo = s.faultInfo := rfl
@[simp] theorem State.fetch_op (s : State) : (s.fetch).op = s.mem.read s.pc := rfl
@[simp] theorem State.fetch_opA (s : State) : (s.fetch).opA = s.mem.read (s.pc + 1) := rfl
@[simp] theorem State.fetch_opB (s : State) : (s.fetch).opB = s.mem.read (s.pc + 2) := rfl
@[simp] theorem State.fetch_mem (s : State) : (s.fetch).mem = s.mem := rfl
@[simp] theorem State.fetch_output (s : State) : (s.fetch).output = s.output := rfl
@[simp] theorem State.fetch_config (s : State) : (s.fetch).config = s.config := rfl
@[simp] theorem State.fetch_getReg (s : State) (k : Fin 8) : (s.fetch).getReg k = s.getReg k := rfl

/-! ## `advance` -/

@[simp] theorem State.advance_regs (s : State) : (s.advance).regs = s.regs := rfl
@[simp] theorem State.advance_pc (s : State) : (s.advance).pc = s.advancedPc := rfl
@[simp] theorem State.advance_sp (s : State) : (s.advance).sp = s.sp := rfl
@[simp] theorem State.advance_fl (s : State) : (s.advance).fl = s.fl := rfl
@[simp] theorem State.advance_runState (s : State) : (s.advance).runState = s.runState := rfl
@[simp] theorem State.advance_faultCause (s : State) : (s.advance).faultCause = s.faultCause := rfl
@[simp] theorem State.advance_faultPc (s : State) : (s.advance).faultPc = s.faultPc := rfl
@[simp] theorem State.advance_faultInfo (s : State) : (s.advance).faultInfo = s.faultInfo := rfl
@[simp] theorem State.advance_op (s : State) : (s.advance).op = s.op := rfl
@[simp] theorem State.advance_opA (s : State) : (s.advance).opA = s.opA := rfl
@[simp] theorem State.advance_opB (s : State) : (s.advance).opB = s.opB := rfl
@[simp] theorem State.advance_mem (s : State) : (s.advance).mem = s.mem := rfl
@[simp] theorem State.advance_output (s : State) : (s.advance).output = s.output := rfl
@[simp] theorem State.advance_config (s : State) : (s.advance).config = s.config := rfl
@[simp] theorem State.advance_getReg (s : State) (k : Fin 8) : (s.advance).getReg k = s.getReg k := rfl

/-! ## `push` -/

@[simp] theorem State.push_regs (s : State) (v : Byte) : (s.push v).regs = s.regs := rfl
@[simp] theorem State.push_pc (s : State) (v : Byte) : (s.push v).pc = s.pc := rfl
@[simp] theorem State.push_sp (s : State) (v : Byte) : (s.push v).sp = s.sp - 1 := rfl
@[simp] theorem State.push_fl (s : State) (v : Byte) : (s.push v).fl = s.fl := rfl
@[simp] theorem State.push_runState (s : State) (v : Byte) : (s.push v).runState = s.runState := rfl
@[simp] theorem State.push_faultCause (s : State) (v : Byte) : (s.push v).faultCause = s.faultCause := rfl
@[simp] theorem State.push_faultPc (s : State) (v : Byte) : (s.push v).faultPc = s.faultPc := rfl
@[simp] theorem State.push_faultInfo (s : State) (v : Byte) : (s.push v).faultInfo = s.faultInfo := rfl
@[simp] theorem State.push_op (s : State) (v : Byte) : (s.push v).op = s.op := rfl
@[simp] theorem State.push_opA (s : State) (v : Byte) : (s.push v).opA = s.opA := rfl
@[simp] theorem State.push_opB (s : State) (v : Byte) : (s.push v).opB = s.opB := rfl
@[simp] theorem State.push_mem (s : State) (v : Byte) : (s.push v).mem = s.mem.write (s.sp - 1) v := rfl
@[simp] theorem State.push_output (s : State) (v : Byte) : (s.push v).output = s.output := rfl
@[simp] theorem State.push_config (s : State) (v : Byte) : (s.push v).config = s.config := rfl
@[simp] theorem State.push_getReg (s : State) (v : Byte) (k : Fin 8) : (s.push v).getReg k = s.getReg k := rfl

/-! ## `drop` -/

@[simp] theorem State.drop_regs (s : State) : (s.drop).regs = s.regs := rfl
@[simp] theorem State.drop_pc (s : State) : (s.drop).pc = s.pc := rfl
@[simp] theorem State.drop_sp (s : State) : (s.drop).sp = s.sp + 1 := rfl
@[simp] theorem State.drop_fl (s : State) : (s.drop).fl = s.fl := rfl
@[simp] theorem State.drop_runState (s : State) : (s.drop).runState = s.runState := rfl
@[simp] theorem State.drop_faultCause (s : State) : (s.drop).faultCause = s.faultCause := rfl
@[simp] theorem State.drop_faultPc (s : State) : (s.drop).faultPc = s.faultPc := rfl
@[simp] theorem State.drop_faultInfo (s : State) : (s.drop).faultInfo = s.faultInfo := rfl
@[simp] theorem State.drop_op (s : State) : (s.drop).op = s.op := rfl
@[simp] theorem State.drop_opA (s : State) : (s.drop).opA = s.opA := rfl
@[simp] theorem State.drop_opB (s : State) : (s.drop).opB = s.opB := rfl
@[simp] theorem State.drop_mem (s : State) : (s.drop).mem = s.mem := rfl
@[simp] theorem State.drop_output (s : State) : (s.drop).output = s.output := rfl
@[simp] theorem State.drop_config (s : State) : (s.drop).config = s.config := rfl
@[simp] theorem State.drop_getReg (s : State) (k : Fin 8) : (s.drop).getReg k = s.getReg k := rfl

/-! ## `setPc` -/

@[simp] theorem State.setPc_regs (s : State) (v : Byte) : (s.setPc v).regs = s.regs := rfl
@[simp] theorem State.setPc_pc (s : State) (v : Byte) : (s.setPc v).pc = v := rfl
@[simp] theorem State.setPc_sp (s : State) (v : Byte) : (s.setPc v).sp = s.sp := rfl
@[simp] theorem State.setPc_fl (s : State) (v : Byte) : (s.setPc v).fl = s.fl := rfl
@[simp] theorem State.setPc_runState (s : State) (v : Byte) : (s.setPc v).runState = s.runState := rfl
@[simp] theorem State.setPc_faultCause (s : State) (v : Byte) : (s.setPc v).faultCause = s.faultCause := rfl
@[simp] theorem State.setPc_faultPc (s : State) (v : Byte) : (s.setPc v).faultPc = s.faultPc := rfl
@[simp] theorem State.setPc_faultInfo (s : State) (v : Byte) : (s.setPc v).faultInfo = s.faultInfo := rfl
@[simp] theorem State.setPc_op (s : State) (v : Byte) : (s.setPc v).op = s.op := rfl
@[simp] theorem State.setPc_opA (s : State) (v : Byte) : (s.setPc v).opA = s.opA := rfl
@[simp] theorem State.setPc_opB (s : State) (v : Byte) : (s.setPc v).opB = s.opB := rfl
@[simp] theorem State.setPc_mem (s : State) (v : Byte) : (s.setPc v).mem = s.mem := rfl
@[simp] theorem State.setPc_output (s : State) (v : Byte) : (s.setPc v).output = s.output := rfl
@[simp] theorem State.setPc_config (s : State) (v : Byte) : (s.setPc v).config = s.config := rfl
@[simp] theorem State.setPc_getReg (s : State) (v : Byte) (k : Fin 8) : (s.setPc v).getReg k = s.getReg k := rfl

/-! ## `setFl` -/

@[simp] theorem State.setFl_regs (s : State) (v : Byte) : (s.setFl v).regs = s.regs := rfl
@[simp] theorem State.setFl_pc (s : State) (v : Byte) : (s.setFl v).pc = s.pc := rfl
@[simp] theorem State.setFl_sp (s : State) (v : Byte) : (s.setFl v).sp = s.sp := rfl
@[simp] theorem State.setFl_fl (s : State) (v : Byte) : (s.setFl v).fl = v := rfl
@[simp] theorem State.setFl_runState (s : State) (v : Byte) : (s.setFl v).runState = s.runState := rfl
@[simp] theorem State.setFl_faultCause (s : State) (v : Byte) : (s.setFl v).faultCause = s.faultCause := rfl
@[simp] theorem State.setFl_faultPc (s : State) (v : Byte) : (s.setFl v).faultPc = s.faultPc := rfl
@[simp] theorem State.setFl_faultInfo (s : State) (v : Byte) : (s.setFl v).faultInfo = s.faultInfo := rfl
@[simp] theorem State.setFl_op (s : State) (v : Byte) : (s.setFl v).op = s.op := rfl
@[simp] theorem State.setFl_opA (s : State) (v : Byte) : (s.setFl v).opA = s.opA := rfl
@[simp] theorem State.setFl_opB (s : State) (v : Byte) : (s.setFl v).opB = s.opB := rfl
@[simp] theorem State.setFl_mem (s : State) (v : Byte) : (s.setFl v).mem = s.mem := rfl
@[simp] theorem State.setFl_output (s : State) (v : Byte) : (s.setFl v).output = s.output := rfl
@[simp] theorem State.setFl_config (s : State) (v : Byte) : (s.setFl v).config = s.config := rfl
@[simp] theorem State.setFl_getReg (s : State) (v : Byte) (k : Fin 8) : (s.setFl v).getReg k = s.getReg k := rfl

/-! ## `emit` -/

@[simp] theorem State.emit_regs (s : State) (v : Byte) : (s.emit v).regs = s.regs := rfl
@[simp] theorem State.emit_pc (s : State) (v : Byte) : (s.emit v).pc = s.pc := rfl
@[simp] theorem State.emit_sp (s : State) (v : Byte) : (s.emit v).sp = s.sp := rfl
@[simp] theorem State.emit_fl (s : State) (v : Byte) : (s.emit v).fl = s.fl := rfl
@[simp] theorem State.emit_runState (s : State) (v : Byte) : (s.emit v).runState = s.runState := rfl
@[simp] theorem State.emit_faultCause (s : State) (v : Byte) : (s.emit v).faultCause = s.faultCause := rfl
@[simp] theorem State.emit_faultPc (s : State) (v : Byte) : (s.emit v).faultPc = s.faultPc := rfl
@[simp] theorem State.emit_faultInfo (s : State) (v : Byte) : (s.emit v).faultInfo = s.faultInfo := rfl
@[simp] theorem State.emit_op (s : State) (v : Byte) : (s.emit v).op = s.op := rfl
@[simp] theorem State.emit_opA (s : State) (v : Byte) : (s.emit v).opA = s.opA := rfl
@[simp] theorem State.emit_opB (s : State) (v : Byte) : (s.emit v).opB = s.opB := rfl
@[simp] theorem State.emit_mem (s : State) (v : Byte) : (s.emit v).mem = s.mem := rfl
@[simp] theorem State.emit_output (s : State) (v : Byte) : (s.emit v).output = s.output ++ [v] := rfl
@[simp] theorem State.emit_config (s : State) (v : Byte) : (s.emit v).config = s.config := rfl
@[simp] theorem State.emit_getReg (s : State) (v : Byte) (k : Fin 8) : (s.emit v).getReg k = s.getReg k := rfl

/-! ## `halt` -/

@[simp] theorem State.halt_regs (s : State) : (s.halt).regs = s.regs := rfl
@[simp] theorem State.halt_pc (s : State) : (s.halt).pc = s.pc := rfl
@[simp] theorem State.halt_sp (s : State) : (s.halt).sp = s.sp := rfl
@[simp] theorem State.halt_fl (s : State) : (s.halt).fl = s.fl := rfl
@[simp] theorem State.halt_runState (s : State) : (s.halt).runState = .halted := rfl
@[simp] theorem State.halt_faultCause (s : State) : (s.halt).faultCause = s.faultCause := rfl
@[simp] theorem State.halt_faultPc (s : State) : (s.halt).faultPc = s.faultPc := rfl
@[simp] theorem State.halt_faultInfo (s : State) : (s.halt).faultInfo = s.faultInfo := rfl
@[simp] theorem State.halt_op (s : State) : (s.halt).op = s.op := rfl
@[simp] theorem State.halt_opA (s : State) : (s.halt).opA = s.opA := rfl
@[simp] theorem State.halt_opB (s : State) : (s.halt).opB = s.opB := rfl
@[simp] theorem State.halt_mem (s : State) : (s.halt).mem = s.mem := rfl
@[simp] theorem State.halt_output (s : State) : (s.halt).output = s.output := rfl
@[simp] theorem State.halt_config (s : State) : (s.halt).config = s.config := rfl
@[simp] theorem State.halt_getReg (s : State) (k : Fin 8) : (s.halt).getReg k = s.getReg k := rfl

/-! ## `setReg` -/

@[simp] theorem State.setReg_regs (s : State) (j : Fin 8) (v : Byte) : (s.setReg j v).regs = s.regs.set j.val v := rfl
@[simp] theorem State.setReg_pc (s : State) (j : Fin 8) (v : Byte) : (s.setReg j v).pc = s.pc := rfl
@[simp] theorem State.setReg_sp (s : State) (j : Fin 8) (v : Byte) : (s.setReg j v).sp = s.sp := rfl
@[simp] theorem State.setReg_fl (s : State) (j : Fin 8) (v : Byte) : (s.setReg j v).fl = s.fl := rfl
@[simp] theorem State.setReg_runState (s : State) (j : Fin 8) (v : Byte) : (s.setReg j v).runState = s.runState := rfl
@[simp] theorem State.setReg_faultCause (s : State) (j : Fin 8) (v : Byte) : (s.setReg j v).faultCause = s.faultCause := rfl
@[simp] theorem State.setReg_faultPc (s : State) (j : Fin 8) (v : Byte) : (s.setReg j v).faultPc = s.faultPc := rfl
@[simp] theorem State.setReg_faultInfo (s : State) (j : Fin 8) (v : Byte) : (s.setReg j v).faultInfo = s.faultInfo := rfl
@[simp] theorem State.setReg_op (s : State) (j : Fin 8) (v : Byte) : (s.setReg j v).op = s.op := rfl
@[simp] theorem State.setReg_opA (s : State) (j : Fin 8) (v : Byte) : (s.setReg j v).opA = s.opA := rfl
@[simp] theorem State.setReg_opB (s : State) (j : Fin 8) (v : Byte) : (s.setReg j v).opB = s.opB := rfl
@[simp] theorem State.setReg_mem (s : State) (j : Fin 8) (v : Byte) : (s.setReg j v).mem = s.mem := rfl
@[simp] theorem State.setReg_output (s : State) (j : Fin 8) (v : Byte) : (s.setReg j v).output = s.output := rfl
@[simp] theorem State.setReg_config (s : State) (j : Fin 8) (v : Byte) : (s.setReg j v).config = s.config := rfl

/-! ## `hostWrite` -/

@[simp] theorem State.hostWrite_regs (s : State) (a v : Byte) : (s.hostWrite a v).regs = s.regs := rfl
@[simp] theorem State.hostWrite_pc (s : State) (a v : Byte) : (s.hostWrite a v).pc = s.pc := rfl
@[simp] theorem State.hostWrite_sp (s : State) (a v : Byte) : (s.hostWrite a v).sp = s.sp := rfl
@[simp] theorem State.hostWrite_fl (s : State) (a v : Byte) : (s.hostWrite a v).fl = s.fl := rfl
@[simp] theorem State.hostWrite_runState (s : State) (a v : Byte) : (s.hostWrite a v).runState = s.runState := rfl
@[simp] theorem State.hostWrite_faultCause (s : State) (a v : Byte) : (s.hostWrite a v).faultCause = s.faultCause := rfl
@[simp] theorem State.hostWrite_faultPc (s : State) (a v : Byte) : (s.hostWrite a v).faultPc = s.faultPc := rfl
@[simp] theorem State.hostWrite_faultInfo (s : State) (a v : Byte) : (s.hostWrite a v).faultInfo = s.faultInfo := rfl
@[simp] theorem State.hostWrite_op (s : State) (a v : Byte) : (s.hostWrite a v).op = s.op := rfl
@[simp] theorem State.hostWrite_opA (s : State) (a v : Byte) : (s.hostWrite a v).opA = s.opA := rfl
@[simp] theorem State.hostWrite_opB (s : State) (a v : Byte) : (s.hostWrite a v).opB = s.opB := rfl
@[simp] theorem State.hostWrite_mem (s : State) (a v : Byte) : (s.hostWrite a v).mem = s.mem.write a v := rfl
@[simp] theorem State.hostWrite_output (s : State) (a v : Byte) : (s.hostWrite a v).output = s.output := rfl
@[simp] theorem State.hostWrite_config (s : State) (a v : Byte) : (s.hostWrite a v).config = s.config := rfl
@[simp] theorem State.hostWrite_getReg (s : State) (a v : Byte) (k : Fin 8) : (s.hostWrite a v).getReg k = s.getReg k := rfl

/-! ## `rst` -/

@[simp] theorem State.rst_pc (s : State) : s.rst.pc = 0x00 := rfl
@[simp] theorem State.rst_sp (s : State) : s.rst.sp = 0xF4 := rfl
@[simp] theorem State.rst_fl (s : State) : s.rst.fl = 0x00 := rfl
@[simp] theorem State.rst_runState (s : State) : s.rst.runState = .running := rfl
@[simp] theorem State.rst_faultCause (s : State) : s.rst.faultCause = 0 := rfl
@[simp] theorem State.rst_faultPc (s : State) : s.rst.faultPc = 0x00 := rfl
@[simp] theorem State.rst_faultInfo (s : State) : s.rst.faultInfo = 0x00 := rfl
@[simp] theorem State.rst_mem (s : State) : s.rst.mem = [] := rfl
@[simp] theorem State.rst_output (s : State) : s.rst.output = [] := rfl
@[simp] theorem State.rst_config (s : State) : s.rst.config = s.config := rfl

/-! ## The registers -/

@[simp] theorem State.getReg_setReg_same (s : State) (k : Fin 8) (v : Byte) :
    (s.setReg k v).getReg k = v := by
  simp [State.getReg]

theorem State.getReg_setReg_of_ne (s : State) (j k : Fin 8) (v : Byte) (h : k ≠ j) :
    (s.setReg j v).getReg k = s.getReg k := by
  simp [State.getReg, State.setReg, Fin.val_inj, h.symm]

end Sys2Proof.Machine
end

