-- ==== Sys2Proof/Laws/Exec.lean ====
section
/-! SUPPORT. What each shared operation and each meaning can do, said once. -/

namespace Sys2Proof.Machine

open Sys2Proof.Laws.Decode

/-! ## Register operands -/

@[simp] theorem toNat_regByte (k : Fin 8) : (regByte k).toNat = k.val := by
  simp only [regByte, BitVec.toNat_ofNat]
  omega

theorem regByte_toNat {i : Byte} (h : i.toNat < 8) : regByte ⟨i.toNat, h⟩ = i := by
  apply BitVec.eq_of_toNat_eq
  simp

/-- A byte below 8 is some register's. -/
theorem exists_regByte {i : Byte} (h : i.toNat < 8) : ∃ k : Fin 8, i = regByte k :=
  ⟨⟨i.toNat, h⟩, (regByte_toNat h).symm⟩

@[simp] theorem readReg_regByte (s : State) (k : Fin 8) : s.readReg (regByte k) = .ok (s.getReg k) := by
  have h : (regByte k).toNat < 8 := by simp
  have hk : (⟨(regByte k).toNat, h⟩ : Fin 8) = k := Fin.ext (by simp)
  simp only [State.readReg, h, dif_pos, hk]

@[simp] theorem writeReg_regByte (s : State) (k : Fin 8) (v : Byte) :
    s.writeReg (regByte k) v = .ok (s.setReg k v) := by
  have h : (regByte k).toNat < 8 := by simp
  have hk : (⟨(regByte k).toNat, h⟩ : Fin 8) = k := Fin.ext (by simp)
  simp only [State.writeReg, h, dif_pos, hk]

theorem readReg_range (s : State) {i : Byte} (h : 8 ≤ i.toNat) : s.readReg i = .error (.regRange i) := by
  simp [State.readReg, Nat.not_lt.mpr h]

theorem writeReg_range (s : State) {i : Byte} (v : Byte) (h : 8 ≤ i.toNat) :
    s.writeReg i v = .error (.regRange i) := by
  simp [State.writeReg, Nat.not_lt.mpr h]

/-! ## Ending an instruction -/

@[simp] theorem commit_ok (s t : State) : s.commit (.ok t) = .next t := rfl

@[simp] theorem commit_error (s : State) (e : Raised) : s.commit (.error e) = .next (s.raise e) := rfl

@[simp] theorem except_ok_bind {ε α β : Type} (x : α) (f : α → Except ε β) : (Except.ok x >>= f) = f x := rfl

@[simp] theorem except_error_bind {ε α β : Type} (e : ε) (f : α → Except ε β) :
    ((Except.error e : Except ε α) >>= f) = Except.error e := rfl

/-- What `commit` can answer: a raise, or the handler's own state. -/
theorem commit_next {s t : State} {r : Except Raised State} (h : s.commit r = .next t) :
    (∃ e, r = .error e ∧ t = s.raise e) ∨ r = .ok t := by
  cases r with
  | error e => exact .inl ⟨e, rfl, (Host.Outcome.next.inj h).symm⟩
  | ok u => exact .inr (congrArg Except.ok (Host.Outcome.next.inj h))

/-- A write to a register operand: out of range, or the register it names. -/
theorem writeReg_ok {s t : State} {i v : Byte} (h : s.writeReg i v = .ok t) :
    ∃ k : Fin 8, i = regByte k ∧ t = s.setReg k v := by
  by_cases hi : i.toNat < 8
  · obtain ⟨k, rfl⟩ := exists_regByte hi
    rw [writeReg_regByte] at h
    exact ⟨k, rfl, (Except.ok.inj h).symm⟩
  · rw [writeReg_range s v (Nat.not_lt.mp hi)] at h
    cases h

/-- A read of a register operand gives the value of the register it names. -/
theorem readReg_ok {s : State} {i v : Byte} (h : s.readReg i = .ok v) :
    ∃ k : Fin 8, i = regByte k ∧ v = s.getReg k := by
  by_cases hi : i.toNat < 8
  · obtain ⟨k, rfl⟩ := exists_regByte hi
    rw [readReg_regByte] at h
    exact ⟨k, rfl, (Except.ok.inj h).symm⟩
  · rw [readReg_range s (Nat.not_lt.mp hi)] at h
    cases h

theorem readReg_error {s : State} {i : Byte} {e : Raised} (h : s.readReg i = .error e) :
    8 ≤ i.toNat ∧ e = .regRange i := by
  by_cases hi : i.toNat < 8
  · obtain ⟨k, rfl⟩ := exists_regByte hi
    rw [readReg_regByte] at h
    cases h
  · rw [readReg_range s (Nat.not_lt.mp hi)] at h
    exact ⟨Nat.not_lt.mp hi, (Except.error.inj h).symm⟩

theorem writeReg_error {s : State} {i v : Byte} {e : Raised} (h : s.writeReg i v = .error e) :
    8 ≤ i.toNat ∧ e = .regRange i := by
  by_cases hi : i.toNat < 8
  · obtain ⟨k, rfl⟩ := exists_regByte hi
    rw [writeReg_regByte] at h
    cases h
  · rw [writeReg_range s v (Nat.not_lt.mp hi)] at h
    exact ⟨Nat.not_lt.mp hi, (Except.error.inj h).symm⟩

/-! ## The ALU instructions -/

/-- What the ALU outputs make of a state: FL for CMP, the register for the others. -/
def State.aluWritten (s : State) (f : AluFn) (j : Fin 8) (va vb : Byte) : State :=
  if f = .cmp then s.setFl (compareFlags va vb) else s.setReg j (aluCompute f va vb).y

@[simp] theorem aluWritten_pc (s : State) (f : AluFn) (j : Fin 8) (va vb : Byte) :
    (s.aluWritten f j va vb).pc = s.pc := by
  cases f <;> rfl

@[simp] theorem aluWritten_sp (s : State) (f : AluFn) (j : Fin 8) (va vb : Byte) :
    (s.aluWritten f j va vb).sp = s.sp := by
  cases f <;> rfl

@[simp] theorem aluWritten_runState (s : State) (f : AluFn) (j : Fin 8) (va vb : Byte) :
    (s.aluWritten f j va vb).runState = s.runState := by
  cases f <;> rfl

@[simp] theorem aluWritten_faultCause (s : State) (f : AluFn) (j : Fin 8) (va vb : Byte) :
    (s.aluWritten f j va vb).faultCause = s.faultCause := by
  cases f <;> rfl

@[simp] theorem aluWritten_faultPc (s : State) (f : AluFn) (j : Fin 8) (va vb : Byte) :
    (s.aluWritten f j va vb).faultPc = s.faultPc := by
  cases f <;> rfl

@[simp] theorem aluWritten_faultInfo (s : State) (f : AluFn) (j : Fin 8) (va vb : Byte) :
    (s.aluWritten f j va vb).faultInfo = s.faultInfo := by
  cases f <;> rfl

@[simp] theorem aluWritten_op (s : State) (f : AluFn) (j : Fin 8) (va vb : Byte) :
    (s.aluWritten f j va vb).op = s.op := by
  cases f <;> rfl

@[simp] theorem aluWritten_opA (s : State) (f : AluFn) (j : Fin 8) (va vb : Byte) :
    (s.aluWritten f j va vb).opA = s.opA := by
  cases f <;> rfl

@[simp] theorem aluWritten_opB (s : State) (f : AluFn) (j : Fin 8) (va vb : Byte) :
    (s.aluWritten f j va vb).opB = s.opB := by
  cases f <;> rfl

@[simp] theorem aluWritten_mem (s : State) (f : AluFn) (j : Fin 8) (va vb : Byte) :
    (s.aluWritten f j va vb).mem = s.mem := by
  cases f <;> rfl

@[simp] theorem aluWritten_output (s : State) (f : AluFn) (j : Fin 8) (va vb : Byte) :
    (s.aluWritten f j va vb).output = s.output := by
  cases f <;> rfl

@[simp] theorem aluWritten_config (s : State) (f : AluFn) (j : Fin 8) (va vb : Byte) :
    (s.aluWritten f j va vb).config = s.config := by
  cases f <;> rfl

theorem writeAlu_compute (s : State) (f : AluFn) (j : Fin 8) (va vb : Byte) :
    s.writeAlu (regByte j) (aluCompute f va vb) = .ok (s.aluWritten f j va vb) := by
  cases f <;> simp [State.writeAlu, State.aluWritten, aluCompute, aluResult, aluFlags]

/-- The select of an instruction finds some function: the instruction completes with it. -/
theorem aluInstr_of_select (s : State) (m : Mnemonic) (f : AluFn) (j k : Fin 8)
    (hf : aluSelect s.config (s.config.opcodeMap.byteOf m) = some f) :
    s.aluInstr m (regByte j) (regByte k) = .next (s.aluWritten f j (s.getReg j) (s.getReg k)) := by
  simp [State.aluInstr, alu, hf, writeAlu_compute]

/-- In a block whose tables are well formed an ALU instruction the block has completes with its own
function. -/
theorem aluInstr_completes (s : State) (f : AluFn) (j k : Fin 8) (hwf : s.config.wf = true)
    (hf : s.config.has f.mnemonic = true) :
    s.aluInstr f.mnemonic (regByte j) (regByte k) =
      .next (s.aluWritten f j (s.getReg j) (s.getReg k)) :=
  aluInstr_of_select s _ f j k (aluSelect_byteOf hwf f hf)

theorem aluInstr_range_a (s : State) (m : Mnemonic) {a : Byte} (b : Byte) (h : 8 ≤ a.toNat) :
    s.aluInstr m a b = .next (s.raise (.regRange a)) := by
  simp [State.aluInstr, readReg_range s h]

theorem aluInstr_range_b (s : State) (m : Mnemonic) {a b : Byte} (ha : a.toNat < 8) (h : 8 ≤ b.toNat) :
    s.aluInstr m a b = .next (s.raise (.regRange b)) := by
  obtain ⟨j, rfl⟩ := exists_regByte ha
  simp [State.aluInstr, readReg_range s h]

theorem aluInstr_unsupported (s : State) (m : Mnemonic) (j k : Fin 8)
    (hf : aluSelect s.config (s.config.opcodeMap.byteOf m) = none) :
    s.aluInstr m (regByte j) (regByte k) =
      .next (s.raise (.aluUnsupported (s.config.opcodeMap.byteOf m))) := by
  simp [State.aluInstr, alu, hf]

/-- Everything an ALU instruction can do. -/
theorem aluInstr_next {s t : State} {m : Mnemonic} {a b : Byte} (h : s.aluInstr m a b = .next t) :
    (8 ≤ a.toNat ∧ t = s.raise (.regRange a)) ∨
    (8 ≤ b.toNat ∧ t = s.raise (.regRange b)) ∨
    (aluSelect s.config (s.config.opcodeMap.byteOf m) = none ∧
      t = s.raise (.aluUnsupported (s.config.opcodeMap.byteOf m))) ∨
    ∃ (f : AluFn) (j k : Fin 8), aluSelect s.config (s.config.opcodeMap.byteOf m) = some f ∧
      a = regByte j ∧ b = regByte k ∧ t = s.aluWritten f j (s.getReg j) (s.getReg k) := by
  by_cases ha : a.toNat < 8
  · by_cases hb : b.toNat < 8
    · obtain ⟨j, rfl⟩ := exists_regByte ha
      obtain ⟨k, rfl⟩ := exists_regByte hb
      cases hf : aluSelect s.config (s.config.opcodeMap.byteOf m) with
      | none =>
        rw [aluInstr_unsupported s m j k hf] at h
        exact .inr (.inr (.inl ⟨rfl, (Host.Outcome.next.inj h).symm⟩))
      | some f =>
        rw [aluInstr_of_select s m f j k hf] at h
        exact .inr (.inr (.inr ⟨f, j, k, rfl, rfl, rfl, (Host.Outcome.next.inj h).symm⟩))
    · rw [aluInstr_range_b s m ha (Nat.not_lt.mp hb)] at h
      exact .inr (.inl ⟨Nat.not_lt.mp hb, (Host.Outcome.next.inj h).symm⟩)
  · rw [aluInstr_range_a s m b (Nat.not_lt.mp ha)] at h
    exact .inl ⟨Nat.not_lt.mp ha, (Host.Outcome.next.inj h).symm⟩

/-! ## The other instructions, completing -/

theorem execLdi_regByte (s : State) (j : Fin 8) (imm : Byte) :
    execLdi (regByte j) imm s = .next (s.setReg j imm) := by
  simp [execLdi]

theorem execPrn_regByte (s : State) (j : Fin 8) :
    execPrn (regByte j) s = .next (s.emit (s.getReg j)) := by
  simp [execPrn]

theorem execPush_regByte (s : State) (j : Fin 8) :
    execPush (regByte j) s = .next (s.push (s.getReg j)) := by
  simp [execPush]

theorem execPop_regByte (s : State) (j : Fin 8) :
    execPop (regByte j) s = .next (s.drop.setReg j s.top) := by
  simp [execPop]

theorem execCall_regByte (s : State) (j : Fin 8) :
    execCall (regByte j) s = .next ((s.push s.pcAfter2).setPc (s.getReg j)) := by
  simp [execCall]

theorem execJmp_regByte (s : State) (j : Fin 8) :
    execJmp (regByte j) s = .next (s.setPc (s.getReg j)) := by
  simp [execJmp, State.jumpTo]

theorem execJeq_taken (s : State) (j : Fin 8) (h : s.fl = flEqual) :
    execJeq (regByte j) s = .next (s.setPc (s.getReg j)) := by
  simp [execJeq, State.jumpTo, State.lastEqual, h]

theorem execJeq_not_taken (s : State) (a : Byte) (h : s.fl ≠ flEqual) :
    execJeq a s = .next (s.setPc s.pcAfter2) := by
  simp [execJeq, State.lastEqual, h]

theorem execJne_taken (s : State) (j : Fin 8) (h : s.fl ≠ flEqual) :
    execJne (regByte j) s = .next (s.setPc (s.getReg j)) := by
  simp [execJne, State.jumpTo, State.lastEqual, h]

theorem execJne_not_taken (s : State) (a : Byte) (h : s.fl = flEqual) :
    execJne a s = .next (s.setPc s.pcAfter2) := by
  simp [execJne, State.lastEqual, h]

/-! ## All instructions together -/

/-- The ALU instructions, with their handler name. -/
def aluOperands : Instr → Option (Mnemonic × Byte × Byte)
  | .add a b => some (.add, a, b)
  | .mul a b => some (.mul, a, b)
  | .cmp a b => some (.cmp, a, b)
  | .sub a b => some (.sub, a, b)
  | .and a b => some (.and, a, b)
  | .or a b => some (.or, a, b)
  | .xor a b => some (.xor, a, b)
  | .shl a b => some (.shl, a, b)
  | .shr a b => some (.shr, a, b)
  | .hlt | .ldi _ _ | .prn _ | .push _ | .pop _ | .call _ | .ret | .jmp _ | .jeq _ | .jne _ => none

/-- What a handler that does not raise leaves: one case per instruction, the ALU instructions in one. -/
inductive Effect (s : State) : Instr → State → Prop where
  | hlt : Effect s .hlt s.halt
  | ldi (j : Fin 8) (imm : Byte) : Effect s (.ldi (regByte j) imm) (s.setReg j imm)
  | prn (j : Fin 8) : Effect s (.prn (regByte j)) (s.emit (s.getReg j))
  | alu (i : Instr) (m : Mnemonic) (f : AluFn) (j k : Fin 8)
      (hi : aluOperands i = some (m, regByte j, regByte k))
      (hf : aluSelect s.config (s.config.opcodeMap.byteOf m) = some f) :
      Effect s i (s.aluWritten f j (s.getReg j) (s.getReg k))
  | push (j : Fin 8) : Effect s (.push (regByte j)) (s.push (s.getReg j))
  | pop (j : Fin 8) : Effect s (.pop (regByte j)) (s.drop.setReg j s.top)
  | call (j : Fin 8) : Effect s (.call (regByte j)) ((s.push s.pcAfter2).setPc (s.getReg j))
  | ret : Effect s .ret (s.drop.setPc s.top)
  | jmp (j : Fin 8) : Effect s (.jmp (regByte j)) (s.setPc (s.getReg j))
  | jeqTaken (j : Fin 8) (h : s.fl = flEqual) : Effect s (.jeq (regByte j)) (s.setPc (s.getReg j))
  | jeqNot (a : Byte) (h : s.fl ≠ flEqual) : Effect s (.jeq a) (s.setPc s.pcAfter2)
  | jneTaken (j : Fin 8) (h : s.fl ≠ flEqual) : Effect s (.jne (regByte j)) (s.setPc (s.getReg j))
  | jneNot (a : Byte) (h : s.fl = flEqual) : Effect s (.jne a) (s.setPc s.pcAfter2)

/-- What a handler can raise: `RegRange` of a register operand of its own, or, from an ALU instruction
whose select names no function, `AluUnsupported`. -/
inductive Raises (s : State) : Instr → Raised → Prop where
  | range (i : Instr) (a : Byte) (ha : a ∈ i.regOperands) (h : 8 ≤ a.toNat) : Raises s i (.regRange a)
  | unsupported (i : Instr) (m : Mnemonic) (a b : Byte) (hi : aluOperands i = some (m, a, b))
      (h : aluSelect s.config (s.config.opcodeMap.byteOf m) = none) :
      Raises s i (.aluUnsupported (s.config.opcodeMap.byteOf m))

theorem mem_regOperands_of_alu {i : Instr} {m : Mnemonic} {a b : Byte}
    (h : aluOperands i = some (m, a, b)) : i.regOperands = [a, b] ∧ i.mnemonic = m := by
  cases i <;> simp_all [aluOperands, Instr.regOperands, Instr.mnemonic]

theorem exec_alu {i : Instr} {m : Mnemonic} {a b : Byte} (h : aluOperands i = some (m, a, b))
    (s : State) : exec i s = s.aluInstr m a b := by
  cases i <;> simp_all [aluOperands] <;> obtain ⟨rfl, rfl, rfl⟩ := h <;> rfl

/-- Everything an instruction can do: take a fault, with nothing else changed, or have its effect. -/
theorem exec_cases (i : Instr) (s : State) :
    (∃ e, Raises s i e ∧ exec i s = .next (s.raise e)) ∨ ∃ t, Effect s i t ∧ exec i s = .next t := by
  have alu_case : ∀ (i : Instr) (m : Mnemonic) (a b : Byte), aluOperands i = some (m, a, b) →
      (∃ e, Raises s i e ∧ exec i s = .next (s.raise e)) ∨ ∃ t, Effect s i t ∧ exec i s = .next t := by
    intro i m a b hi
    have hregs := (mem_regOperands_of_alu hi).1
    rw [exec_alu hi]
    by_cases ha : a.toNat < 8
    · by_cases hb : b.toNat < 8
      · obtain ⟨j, rfl⟩ := exists_regByte ha
        obtain ⟨k, rfl⟩ := exists_regByte hb
        cases hf : aluSelect s.config (s.config.opcodeMap.byteOf m) with
        | none => exact .inl ⟨_, .unsupported i m _ _ hi hf, aluInstr_unsupported s m j k hf⟩
        | some f => exact .inr ⟨_, .alu i m f j k hi hf, aluInstr_of_select s m f j k hf⟩
      · exact .inl ⟨_, .range i b (by simp [hregs]) (Nat.not_lt.mp hb),
          aluInstr_range_b s m ha (Nat.not_lt.mp hb)⟩
    · exact .inl ⟨_, .range i a (by simp [hregs]) (Nat.not_lt.mp ha),
        aluInstr_range_a s m b (Nat.not_lt.mp ha)⟩
  cases i with
  | hlt => exact .inr ⟨_, .hlt, rfl⟩
  | ret => exact .inr ⟨_, .ret, rfl⟩
  | add a b => exact alu_case _ _ a b rfl
  | mul a b => exact alu_case _ _ a b rfl
  | cmp a b => exact alu_case _ _ a b rfl
  | sub a b => exact alu_case _ _ a b rfl
  | and a b => exact alu_case _ _ a b rfl
  | or a b => exact alu_case _ _ a b rfl
  | xor a b => exact alu_case _ _ a b rfl
  | shl a b => exact alu_case _ _ a b rfl
  | shr a b => exact alu_case _ _ a b rfl
  | ldi a imm =>
    by_cases ha : a.toNat < 8
    · obtain ⟨j, rfl⟩ := exists_regByte ha
      exact .inr ⟨_, .ldi j imm, execLdi_regByte s j imm⟩
    · have h := Nat.not_lt.mp ha
      exact .inl ⟨_, .range _ a (by simp [Instr.regOperands]) h,
        by simp [exec, execLdi, writeReg_range s imm h]⟩
  | prn a =>
    by_cases ha : a.toNat < 8
    · obtain ⟨j, rfl⟩ := exists_regByte ha
      exact .inr ⟨_, .prn j, execPrn_regByte s j⟩
    · have h := Nat.not_lt.mp ha
      exact .inl ⟨_, .range _ a (by simp [Instr.regOperands]) h,
        by simp [exec, execPrn, readReg_range s h]⟩
  | push a =>
    by_cases ha : a.toNat < 8
    · obtain ⟨j, rfl⟩ := exists_regByte ha
      exact .inr ⟨_, .push j, execPush_regByte s j⟩
    · have h := Nat.not_lt.mp ha
      exact .inl ⟨_, .range _ a (by simp [Instr.regOperands]) h,
        by simp [exec, execPush, readReg_range s h]⟩
  | pop a =>
    by_cases ha : a.toNat < 8
    · obtain ⟨j, rfl⟩ := exists_regByte ha
      exact .inr ⟨_, .pop j, execPop_regByte s j⟩
    · have h := Nat.not_lt.mp ha
      exact .inl ⟨_, .range _ a (by simp [Instr.regOperands]) h,
        by simp [exec, execPop, writeReg_range s.drop s.top h]⟩
  | call a =>
    by_cases ha : a.toNat < 8
    · obtain ⟨j, rfl⟩ := exists_regByte ha
      exact .inr ⟨_, .call j, execCall_regByte s j⟩
    · have h := Nat.not_lt.mp ha
      exact .inl ⟨_, .range _ a (by simp [Instr.regOperands]) h,
        by simp [exec, execCall, readReg_range s h]⟩
  | jmp a =>
    by_cases ha : a.toNat < 8
    · obtain ⟨j, rfl⟩ := exists_regByte ha
      exact .inr ⟨_, .jmp j, execJmp_regByte s j⟩
    · have h := Nat.not_lt.mp ha
      exact .inl ⟨_, .range _ a (by simp [Instr.regOperands]) h,
        by simp [exec, execJmp, State.jumpTo, readReg_range s h]⟩
  | jeq a =>
    by_cases hfl : s.fl = flEqual
    · by_cases ha : a.toNat < 8
      · obtain ⟨j, rfl⟩ := exists_regByte ha
        exact .inr ⟨_, .jeqTaken j hfl, execJeq_taken s j hfl⟩
      · have h := Nat.not_lt.mp ha
        exact .inl ⟨_, .range _ a (by simp [Instr.regOperands]) h,
          by simp [exec, execJeq, State.lastEqual, State.jumpTo, hfl, readReg_range s h]⟩
    · exact .inr ⟨_, .jeqNot a hfl, execJeq_not_taken s a hfl⟩
  | jne a =>
    by_cases hfl : s.fl = flEqual
    · exact .inr ⟨_, .jneNot a hfl, execJne_not_taken s a hfl⟩
    · by_cases ha : a.toNat < 8
      · obtain ⟨j, rfl⟩ := exists_regByte ha
        exact .inr ⟨_, .jneTaken j hfl, execJne_taken s j hfl⟩
      · have h := Nat.not_lt.mp ha
        exact .inl ⟨_, .range _ a (by simp [Instr.regOperands]) h,
          by simp [exec, execJne, State.lastEqual, State.jumpTo, hfl, readReg_range s h]⟩

/-- The same, from the next state: the one lemma a claim about all instructions starts from. -/
theorem exec_next {i : Instr} {s t : State} (h : exec i s = .next t) :
    (∃ e, Raises s i e ∧ t = s.raise e) ∨ Effect s i t := by
  rcases exec_cases i s with ⟨e, hr, he⟩ | ⟨u, hu, he⟩
  · exact .inl ⟨e, hr, Host.Outcome.next.inj (h.symm.trans he)⟩
  · exact .inr (Host.Outcome.next.inj (h.symm.trans he) ▸ hu)

/-- No instruction is refused and none stops the machine. -/
theorem exec_answers_next (i : Instr) (s : State) : ∃ t, exec i s = .next t := by
  rcases exec_cases i s with ⟨e, _, he⟩ | ⟨t, _, he⟩
  · exact ⟨_, he⟩
  · exact ⟨t, he⟩

/-- In a block whose tables are well formed the function the select of an ALU instruction finds is its
own. -/
theorem aluSelect_own {c : Config} (hwf : c.wf = true) {m : Mnemonic} {f : AluFn}
    (h : aluSelect c (c.opcodeMap.byteOf m) = some f) : f.mnemonic = m := by
  have hf : c.has f.mnemonic = true ∧ c.aluMap.byteOf f = c.opcodeMap.byteOf m := by
    simpa using List.find?_some h
  exact byteOf_injective hwf (((wf_parts hwf).2.2 f).symm.trans hf.2)

end Sys2Proof.Machine
end

