-- ==== Sys2Proof/Laws/PerInstr.lean ====
section
/-! SUPPORT. The family `Shape`: what the encoding tables say of each instruction as it is written. -/

namespace Sys2Proof.Laws.Shape

open Sys2Proof

/-- The encoding is the instruction's byte and as many operand bytes as its count says, and building the
instruction back from those bytes gives it again, whatever stands in the bytes it does not use. -/
def Statement (i : Instr) : Prop :=
  (∀ c : Config, encode c i = c.opcodeMap.byteOf i.mnemonic :: i.operands) ∧
  i.operands.length = i.mnemonic.operandCount ∧
  ∀ rest : List Byte,
    i.mnemonic.build ((i.operands ++ rest).getD 0 0) ((i.operands ++ rest).getD 1 0) = i

theorem hlt : Statement .hlt := ⟨fun _ => rfl, rfl, fun _ => rfl⟩
theorem ldi (a imm : Byte) : Statement (.ldi a imm) := ⟨fun _ => rfl, rfl, fun _ => rfl⟩
theorem prn (a : Byte) : Statement (.prn a) := ⟨fun _ => rfl, rfl, fun _ => rfl⟩
theorem add (a b : Byte) : Statement (.add a b) := ⟨fun _ => rfl, rfl, fun _ => rfl⟩
theorem mul (a b : Byte) : Statement (.mul a b) := ⟨fun _ => rfl, rfl, fun _ => rfl⟩
theorem cmp (a b : Byte) : Statement (.cmp a b) := ⟨fun _ => rfl, rfl, fun _ => rfl⟩
theorem push (a : Byte) : Statement (.push a) := ⟨fun _ => rfl, rfl, fun _ => rfl⟩
theorem pop (a : Byte) : Statement (.pop a) := ⟨fun _ => rfl, rfl, fun _ => rfl⟩
theorem call (a : Byte) : Statement (.call a) := ⟨fun _ => rfl, rfl, fun _ => rfl⟩
theorem ret : Statement .ret := ⟨fun _ => rfl, rfl, fun _ => rfl⟩
theorem jmp (a : Byte) : Statement (.jmp a) := ⟨fun _ => rfl, rfl, fun _ => rfl⟩
theorem jeq (a : Byte) : Statement (.jeq a) := ⟨fun _ => rfl, rfl, fun _ => rfl⟩
theorem jne (a : Byte) : Statement (.jne a) := ⟨fun _ => rfl, rfl, fun _ => rfl⟩
theorem sub (a b : Byte) : Statement (.sub a b) := ⟨fun _ => rfl, rfl, fun _ => rfl⟩
theorem and (a b : Byte) : Statement (.and a b) := ⟨fun _ => rfl, rfl, fun _ => rfl⟩
theorem or (a b : Byte) : Statement (.or a b) := ⟨fun _ => rfl, rfl, fun _ => rfl⟩
theorem xor (a b : Byte) : Statement (.xor a b) := ⟨fun _ => rfl, rfl, fun _ => rfl⟩
theorem shl (a b : Byte) : Statement (.shl a b) := ⟨fun _ => rfl, rfl, fun _ => rfl⟩
theorem shr (a b : Byte) : Statement (.shr a b) := ⟨fun _ => rfl, rfl, fun _ => rfl⟩

end Sys2Proof.Laws.Shape
end

