-- ==== Sys2Proof/Laws/Step.lean ====
section
/-! SUPPORT. What a step can do, said once. -/

namespace Sys2Proof.Machine

theorem latched_fetch (s : State) : s.fetch.latched = s.atPc := rfl

theorem step_of_instr {s : State} {i : Instr} (hr : s.runState = .running) (h : s.atPc = .instr i) :
    step s = finishStep (exec i s.fetch) := by
  unfold step
  rw [hr]
  simp only [latched_fetch, h]

theorem step_of_unknown {s : State} {op : Byte} (hr : s.runState = .running) (h : s.atPc = .unknown op) :
    step s = .next s.fetch.advance := by
  unfold step
  rw [hr]
  simp only [latched_fetch, h]
  rfl

theorem step_of_not_running {s : State} (h : s.runState ≠ .running) : step s = s.terminal := by
  unfold step
  cases hr : s.runState <;> simp_all

/-- A raise ends the step: no advance. -/
theorem advance_raise (s : State) (e : Raised) : (s.raise e).advance = s.raise e := rfl

/-- Everything a step of a running block can do. -/
theorem step_running {s t : State} (hr : s.runState = .running) (h : step s = .next t) :
    (∃ i e, s.atPc = .instr i ∧ Raises s.fetch i e ∧ t = s.fetch.raise e) ∨
    (∃ i u, s.atPc = .instr i ∧ Effect s.fetch i u ∧ t = u.advance) ∨
    (∃ op, s.atPc = .unknown op ∧ t = s.fetch.advance) := by
  cases hd : s.atPc with
  | unknown op =>
    rw [step_of_unknown hr hd] at h
    exact .inr (.inr ⟨op, rfl, (Host.Outcome.next.inj h).symm⟩)
  | instr i =>
    rw [step_of_instr hr hd] at h
    rcases exec_cases i s.fetch with ⟨e, hraise, he⟩ | ⟨u, hu, he⟩
    · rw [he] at h
      exact .inl ⟨i, e, rfl, hraise, (Host.Outcome.next.inj h).symm⟩
    · rw [he] at h
      exact .inr (.inl ⟨i, u, rfl, hu, (Host.Outcome.next.inj h).symm⟩)

/-- The instruction at PC is one the block has, under the byte at PC. -/
theorem atPc_instr {s : State} {i : Instr} (h : s.atPc = .instr i) :
    s.config.has i.mnemonic = true ∧ s.config.opcodeMap.byteOf i.mnemonic = s.mem.read s.pc :=
  Laws.Decode.decode_instr_mnemonic h

end Sys2Proof.Machine
end

