-- ==== Sys2Proof/Tests/Slice0.lean ====
section
/-! SUPPORT. The model's own tests: encodings written out from 30_encoding.md, the ill-formed terms each check
refuses, single steps with the expected values of 95_test_vectors.md, and a witness of the hypotheses of
every statement of Certificates/Slice0/Obligations.lean. -/

namespace Sys2Proof.Tests

open Sys2Proof Sys2Proof.Machine

/-! ## Helpers -/

/-- The reset state with bytes at PC. -/
def start (pc : Byte) (bytes : List Byte) : State :=
  { State.reset with pc := pc, mem := Memory.writeBytes [] pc bytes }

/-- The same with values in R0 and R1. -/
def startRegs (pc : Byte) (bytes : List Byte) (r0 r1 : Byte) : State :=
  ((start pc bytes).setReg 0 r0).setReg 1 r1

/-- The same in a block with `ALU_EXT = true`. -/
def startExt (bytes : List Byte) (r0 r1 : Byte) : State :=
  { startRegs 0 bytes r0 r1 with fl := 0x04, config := .extended }

/-- The next state of an outcome. -/
def after : Host.Outcome State Fault Refusal → Option State
  | .next t => some t
  | .fault _ => none
  | .refused _ => none

/-- The next state, for outcomes known to have one. -/
def got (o : Host.Outcome State Fault Refusal) : State := (after o).getD State.reset

/-- PC, SP, FL and R0 after one step. -/
def brief (s : State) : Option (Byte × Byte × Byte × Byte) :=
  (after (step s)).map fun t => (t.pc, t.sp, t.fl, t.getReg 0)

/-- Whether the block is FAULTED after one step, with cause, PC, information, SP and the number of values
emitted. -/
def faultOf (s : State) : Option (List Nat) :=
  (after (step s)).map fun t =>
    [if t.runState = .faulted then 1 else 0, t.faultCause.toNat, t.faultPc.toNat, t.faultInfo.toNat, t.sp.toNat,
      t.output.length]

/-! ## Encodings, bit by bit (30_encoding.md R64, R65, R68) -/

theorem test_decode_hlt : decode .base 0b00000001 0xFF 0xFF = .instr .hlt := by decide
theorem test_decode_ldi : decode .base 0b10000010 0x00 0x08 = .instr (.ldi 0 8) := by decide
theorem test_decode_prn : decode .base 0b01000111 0x00 0x00 = .instr (.prn 0) := by decide
theorem test_decode_add : decode .base 0b10100000 0x03 0x05 = .instr (.add 3 5) := by decide
theorem test_decode_mul : decode .base 0b10100010 0x03 0x05 = .instr (.mul 3 5) := by decide
theorem test_decode_cmp : decode .base 0b10100111 0x03 0x05 = .instr (.cmp 3 5) := by decide
theorem test_decode_push : decode .base 0b01000101 0x06 0x99 = .instr (.push 6) := by decide
theorem test_decode_pop : decode .base 0b01000110 0x06 0x99 = .instr (.pop 6) := by decide
theorem test_decode_call : decode .base 0b01010000 0x01 0x99 = .instr (.call 1) := by decide
theorem test_decode_ret : decode .base 0b00010001 0x01 0x99 = .instr .ret := by decide
theorem test_decode_jmp : decode .base 0b01010100 0x04 0x99 = .instr (.jmp 4) := by decide
theorem test_decode_jeq : decode .base 0b01010101 0x03 0x99 = .instr (.jeq 3) := by decide
theorem test_decode_jne : decode .base 0b01010110 0x03 0x99 = .instr (.jne 3) := by decide
theorem test_decode_sub : decode .extended 0b10100001 0x01 0x02 = .instr (.sub 1 2) := by decide
theorem test_decode_and : decode .extended 0b10101000 0x01 0x02 = .instr (.and 1 2) := by decide
theorem test_decode_or : decode .extended 0b10101010 0x01 0x02 = .instr (.or 1 2) := by decide
theorem test_decode_xor : decode .extended 0b10101011 0x01 0x02 = .instr (.xor 1 2) := by decide
theorem test_decode_shl : decode .extended 0b10101100 0x01 0x02 = .instr (.shl 1 2) := by decide
theorem test_decode_shr : decode .extended 0b10101101 0x01 0x02 = .instr (.shr 1 2) := by decide

/-- An operand byte is not masked to 3 bits (R67). -/
theorem test_decode_keeps_register_byte : decode .base 0xA0 0x09 0xFF = .instr (.add 9 0xFF) := by decide

/-- The counts of unknown opcodes (R66): 243 without and 237 with `ALU_EXT`. -/
theorem test_unknown_counts :
    ((List.range 256).countP fun n => (Config.base.decodeRom (BitVec.ofNat 8 n)).isNone) = 243 ∧
    ((List.range 256).countP fun n => (Config.extended.decodeRom (BitVec.ofNat 8 n)).isNone) = 237 := by
  decide +kernel

/-- The group of unknown opcodes with bit 4 set has 123 bytes (R66). -/
theorem test_hanging_count :
    ((List.range 256).countP fun n =>
      (Config.base.decodeRom (BitVec.ofNat 8 n)).isNone && setsPc (BitVec.ofNat 8 n)) = 123 := by
  decide +kernel

/-- A word of opcode_table.json: bits 7 to 0 the opcode byte, 15 to 8 `a`, 23 to 16 `b` (log entry 19). -/
theorem test_table_word : decodeTableWord 24 0x0100A1 = some (.sub 0 1) := by decide

theorem test_table_word_short : decodeTableWord 8 0xFFFF01 = some .hlt := by decide

/-- The encoder, from the source's §8 image (95_test_vectors.md L1-6). -/
theorem test_encode_ldi : encode .base (.ldi 0 8) = [0b10000010, 0b00000000, 0b00001000] := by decide

/-! ## Ill-formed terms -/

theorem test_wf_refuses_extension_in_base : (Instr.sub 0 1).wf .base = false := by decide

theorem test_regsNamed_refuses_r8 : (Instr.add 0 8).regsNamed = false := by decide

/-- ADD and MUL under one byte. -/
theorem test_config_wf_refuses_shared_byte :
    Config.wf { Config.base with
      opcodeMap := { OpcodeMap.ls8 with add := 0xA2 }, aluMap := { AluMap.ls8 with add := 0xA2 } } = false := by
  decide

/-- PUSH under a byte of operand count 2. -/
theorem test_config_wf_refuses_wrong_count :
    Config.wf { Config.base with opcodeMap := { OpcodeMap.ls8 with push := 0x85 } } = false := by decide

/-- JMP under a byte without the sets-PC bit. -/
theorem test_config_wf_refuses_wrong_setsPc :
    Config.wf { Config.base with opcodeMap := { OpcodeMap.ls8 with jmp := 0x44 } } = false := by decide

/-- ADD moved in the opcode map and not in the ALU (60_exceptions.md R183). -/
theorem test_config_wf_refuses_unchanged_alu :
    Config.wf { Config.base with opcodeMap := { OpcodeMap.ls8 with add := 0xA3 } } = false := by decide

/-! ## Single steps (95_test_vectors.md; the vector's id stands before each) -/

/-- S1. -/
theorem test_unknown_count0 : brief (start 0x05 [0x00]) = some (0x06, 0xF4, 0, 0) := by decide
/-- S3. -/
theorem test_unknown_count2 : brief (start 0x05 [0x80, 0x99, 0x99]) = some (0x08, 0xF4, 0, 0) := by decide
/-- S5. -/
theorem test_unknown_count3_wraps : brief (start 0xFE [0xE0]) = some (0x02, 0xF4, 0, 0) := by decide
/-- S7. -/
theorem test_unknown_setsPc_hangs : brief (start 0x20 [0xFF]) = some (0x20, 0xF4, 0, 0) := by decide
/-- S8. -/
theorem test_sub_unknown_in_base : brief (startRegs 0 [0xA1, 0, 1] 5 3) = some (0x03, 0xF4, 0, 5) := by decide
/-- S9. -/
theorem test_fetch_wraps :
    (after (step (start 0xFF [0x82, 0x03, 0x2A]))).map (fun t => (t.pc, t.getReg 3)) = some (0x02, 0x2A) := by
  decide
/-- S10. -/
theorem test_halted_no_step :
    after (step { start 0 [0x82, 0, 1] with runState := .halted }) =
      some { start 0 [0x82, 0, 1] with runState := .halted } := by decide

/-- A1. -/
theorem test_add : brief { startRegs 0 [0xA0, 0, 1] 5 3 with fl := 4 } = some (3, 0xF4, 4, 8) := by decide
/-- A2. -/
theorem test_add_wraps : brief (startRegs 0 [0xA0, 0, 1] 0xFF 1) = some (3, 0xF4, 0, 0) := by decide
/-- A7. -/
theorem test_mul_low_byte : brief (startRegs 0 [0xA2, 0, 1] 0xFF 0xFF) = some (3, 0xF4, 0, 1) := by decide
/-- A8, in R0. -/
theorem test_mul_square : brief (startRegs 0 [0xA2, 0, 0] 0x0F 0) = some (3, 0xF4, 0, 0xE1) := by decide
/-- A9. -/
theorem test_cmp_equal : brief { startRegs 0 [0xA7, 0, 1] 7 7 with fl := 4 } = some (3, 0xF4, 1, 7) := by decide
/-- A12. -/
theorem test_cmp_unsigned : brief (startRegs 0 [0xA7, 0, 1] 0xFF 0) = some (3, 0xF4, 2, 0xFF) := by decide

/-- X2. -/
theorem test_sub_wraps : brief (startExt [0xA1, 0, 1] 0 1) = some (3, 0xF4, 4, 0xFF) := by decide
/-- X3. -/
theorem test_and : brief (startExt [0xA8, 0, 1] 0xCC 0xAA) = some (3, 0xF4, 4, 0x88) := by decide
/-- X4. -/
theorem test_or : brief (startExt [0xAA, 0, 1] 0xCC 0xAA) = some (3, 0xF4, 4, 0xEE) := by decide
/-- X5. -/
theorem test_xor : brief (startExt [0xAB, 0, 1] 0xCC 0xAA) = some (3, 0xF4, 4, 0x66) := by decide
/-- X6. -/
theorem test_shl : brief (startExt [0xAC, 0, 1] 0x81 1) = some (3, 0xF4, 4, 2) := by decide
/-- X8. -/
theorem test_shl_width : brief (startExt [0xAC, 0, 1] 1 8) = some (3, 0xF4, 4, 0) := by decide
/-- X12. -/
theorem test_shr_logical : brief (startExt [0xAD, 0, 1] 0xB6 2) = some (3, 0xF4, 4, 0x2D) := by decide
/-- X11. -/
theorem test_shr_width : brief (startExt [0xAD, 0, 1] 0xFF 8) = some (3, 0xF4, 4, 0) := by decide

/-- K3. -/
theorem test_push_wraps :
    (after (step { startRegs 0x10 [0x45, 0] 0x99 0 with sp := 0 })).map
      (fun t => (t.pc, t.sp, t.mem.read 0xFF)) = some (0x12, 0xFF, 0x99) := by decide
/-- K9: the push lands on its own operand byte. -/
theorem test_push_over_itself :
    (after (step { startRegs 0x10 [0x45, 0] 1 0 with sp := 0x12 })).map
      (fun t => (t.pc, t.sp, t.mem.read 0x11)) = some (0x12, 0x11, 1) := by decide
/-- K4. -/
theorem test_pop_wraps :
    brief { start 0x10 [0x46, 0] with
      sp := 0xFF, mem := (Memory.writeBytes [] 0x10 [0x46, 0]).write 0xFF 0x77 } =
      some (0x12, 0, 0, 0x77) := by decide
/-- K8: the step of SP is discarded. -/
theorem test_pop_fault_keeps_sp :
    faultOf { start 0x10 [0x46, 9] with sp := 0xF3 } = some [1, 1, 0x10, 9, 0xF3, 0] := by decide

/-- C3. -/
theorem test_call_return_address_wraps :
    (after (step (startRegs 0xFF [0x50, 1] 0 0x40))).map (fun t => (t.pc, t.sp, t.mem.read 0xF3)) =
      some (0x40, 0xF3, 1) := by decide
/-- C4. -/
theorem test_call_fault_discards_push :
    (after (step (start 0x10 [0x50, 8]))).map (fun t => (t.sp, t.mem.read 0xF3, t.faultInfo)) =
      some (0xF4, 0, 8) := by decide
/-- C8. -/
theorem test_ret_wraps :
    brief { start 0x40 [0x11] with
      sp := 0xFF, mem := (Memory.writeBytes [] 0x40 [0x11]).write 0xFF 0x33 } = some (0x33, 0, 0, 0) := by
  decide
/-- C9, by R7. -/
theorem test_jmp : brief (start 0x10 [0x54, 7]) = some (0xF4, 0xF4, 0, 0) := by decide
/-- C12-1, by R1. -/
theorem test_jeq_taken : brief { startRegs 0x10 [0x55, 1] 0 0x0C with fl := 1 } = some (0x0C, 0xF4, 1, 0) := by
  decide
/-- C14. -/
theorem test_jeq_not_taken_unchecked : brief (start 0x10 [0x55, 9]) = some (0x12, 0xF4, 0, 0) := by decide
/-- C13-3, by R1. -/
theorem test_jne_taken : brief { startRegs 0x10 [0x56, 1] 0 0x20 with fl := 4 } = some (0x20, 0xF4, 4, 0) := by
  decide
/-- C19. -/
theorem test_jne_not_taken_wraps : brief { start 0xFF [0x56, 3] with fl := 1 } = some (1, 0xF4, 1, 0) := by
  decide

/-- T2: R7 is not SP. -/
theorem test_ldi_r7 :
    (after (step (start 0 [0x82, 7, 0]))).map (fun t => (t.pc, t.sp, t.getReg 7)) = some (3, 0xF4, 0) := by decide
/-- T7. -/
theorem test_prn_r7 : (after (step (start 0x20 [0x47, 7]))).map (fun t => (t.pc, t.output)) = some (0x22, [244]) := by
  decide
/-- T6. -/
theorem test_prn_fault_emits_nothing : faultOf (start 0x20 [0x47, 8]) = some [1, 1, 0x20, 8, 0xF4, 0] := by
  decide
/-- T8. -/
theorem test_hlt_keeps_pc :
    (after (step (start 6 [0x01, 0xFF, 0xFF]))).map (fun t => (t.pc, t.runState)) = some (6, .halted) := by decide

/-- F1. -/
theorem test_fault_priority : faultOf (start 3 [0xA0, 9, 0x0A]) = some [1, 1, 3, 9, 0xF4, 0] := by decide
/-- F3. -/
theorem test_cmp_fault_keeps_fl : brief { start 3 [0xA7, 0, 0xFF] with fl := 2 } = some (3, 0xF4, 2, 0) := by decide

/-- The ALU gets a select it has no function for: ADD moved in the opcode map alone (60_exceptions.md
R183). -/
theorem test_alu_unsupported :
    faultOf { start 0 [0xA3, 0, 1] with
      config := { Config.base with opcodeMap := { OpcodeMap.ls8 with add := 0xA3 } } } =
      some [1, 2, 0, 0xA3, 0xF4, 0] := by decide

/-- Z1: `rst` at a FAULTED block. -/
theorem test_rst :
    after (boundary ⟨true, true, true, 0, 9⟩ ((startRegs 0x10 [1] 5 6).raise (.regRange 9))) =
      some State.reset := by decide

/-- A table word runs as the first instruction after reset. -/
theorem test_withFetchWord_base : brief (State.reset.withFetchWord 24 0x080082) = some (3, 0xF4, 0, 8) := by decide

/-- A row of the extension does so too. -/
theorem test_withFetchWord_ext :
    (after (step (State.reset.withFetchWord 24 0x0700A1))).map (fun t => (t.pc, t.runState, t.getReg 0)) =
      some (3, .running, 0x0C) := by decide

/-! ## A witness of the hypotheses of each statement -/

theorem got_next {o : Host.Outcome State Fault Refusal} {t : State} (h : after o = some t) : o = .next t := by
  cases o <;> simp_all [after]

theorem witness_DecodeOfEncodeIsTheInstruction :
    Config.base.wf = true ∧ (Instr.add 0 9).wf .base = true ∧
    Config.extended.wf = true ∧ (Instr.shr 7 255).wf .extended = true := by decide

theorem witness_EncodeOfDecodeIsTheBytes : decode .base 0x11 5 6 = .instr .ret := by decide

theorem witness_OpcodeByteGivesLengthAndSetsPc : Config.base.wf = true := by decide

theorem witness_StepRunsTheDecodedInstruction :
    (start 0 [0x82, 0, 8]).runState = .running ∧ (start 0 [0x82, 0, 8]).atPc = .instr (.ldi 0 8) ∧
    exec (.ldi 0 8) (start 0 [0x82, 0, 8]).fetch = .next ((start 0 [0x82, 0, 8]).fetch.setReg 0 8) :=
  ⟨rfl, by decide, rfl⟩

/-- EveryStepLatchesTheBytesBeforeIt, PcAfterEveryStep, OnlyHltHalts, RunningStepAlwaysAnswersNext,
StepDoesNotDependOnOldLatches, OnlyPrnAppendsToTheOutput, HandlersKeepLatchesAndParameters. -/
theorem witness_running_step :
    (start 0xFE [0x45, 0]).runState = .running ∧ (start 0xFE [0x45, 0]).config.wf = true ∧
    step (start 0xFE [0x45, 0]) = .next (got (step (start 0xFE [0x45, 0]))) ∧
    (got (step (start 0xFE [0x45, 0]))).runState ≠ .faulted :=
  ⟨rfl, by decide, got_next (by decide), by decide⟩

theorem witness_OnlyHltHalts :
    step (start 0 [0x01]) = .next (got (step (start 0 [0x01]))) ∧ (start 0 [0x01]).atPc = .instr .hlt :=
  ⟨got_next (by decide), by decide⟩

theorem witness_OnlyPrnAppendsToTheOutput :
    step (start 0 [0x47, 7]) = .next (got (step (start 0 [0x47, 7]))) ∧
    (got (step (start 0 [0x47, 7]))).output = [0xF4] :=
  ⟨got_next (by decide), by decide⟩

theorem witness_UnknownOpcodeOnlyAdvancesPc :
    (start 0xFE [0xE0]).runState = .running ∧
    (start 0xFE [0xE0]).config.decodeRom ((start 0xFE [0xE0]).mem.read (start 0xFE [0xE0]).pc) = none ∧
    setsPc ((start 0xFE [0xE0]).mem.read (start 0xFE [0xE0]).pc) = false := by decide

theorem witness_UnknownSetsPcOpcodeHangsForever :
    (start 0x20 [0x10]).runState = .running ∧
    (start 0x20 [0x10]).config.decodeRom ((start 0x20 [0x10]).mem.read (start 0x20 [0x10]).pc) = none ∧
    setsPc ((start 0x20 [0x10]).mem.read (start 0x20 [0x10]).pc) = true := by decide

/-- Both kinds of terminal state, and the reserved cause. -/
theorem witness_TerminalStatesTakeNoStep :
    State.reset.halt.runState = .halted ∧
    (State.reset.raise (.aluUnsupported 0)).runState = .faulted ∧
    (State.reset.raise (.aluUnsupported 0)).faultCause ≠ 3 := by decide

theorem witness_ReservedFaultCauseIsRefused :
    step { State.reset with runState := .faulted, faultCause := 3 } = .refused .reservedFaultCause := rfl

theorem witness_FaultedStepIsPrecise :
    (start 3 [0xA0, 0, 8]).runState = .running ∧ (start 3 [0xA0, 0, 8]).config.wf = true ∧
    step (start 3 [0xA0, 0, 8]) = .next (got (step (start 3 [0xA0, 0, 8]))) ∧
    (got (step (start 3 [0xA0, 0, 8]))).runState = .faulted :=
  ⟨rfl, by decide, got_next (by decide), by decide⟩

/-- The range clause of LdiLoadsTheImmediate, PrnEmitsTheRegister, PushStoresTheRegisterBelowSp,
PopLoadsTheTopOfStack, CallPushesReturnAddressAndJumps, JmpSetsPcToTheRegister and of CMP, JEQ, JNE: 8 is
out of range and 7 is not. -/
theorem witness_range_clause : 8 ≤ (8 : Byte).toNat ∧ (7 : Byte).toNat < 8 ∧ (7 : Byte) = regByte 7 := by decide

theorem witness_HltHaltsWithPcKept :
    (start 0xFF [0x01]).runState = .running ∧ (start 0xFF [0x01]).atPc = .instr .hlt := by decide

/-- AddWritesTheSumModulo256, MulWritesTheProductModulo256, CmpWritesOnePatternToFl. -/
theorem witness_wf_block : (startRegs 0 [] 5 3).config.wf = true := by decide

/-- The three clauses of CMP, each where it meets the next. -/
theorem witness_CmpWritesOnePatternToFl :
    ((startRegs 0 [] 5 5).getReg 0).toNat = ((startRegs 0 [] 5 5).getReg 1).toNat ∧
    ((startRegs 0 [] 5 4).getReg 1).toNat < ((startRegs 0 [] 5 4).getReg 0).toNat ∧
    ((startRegs 0 [] 5 6).getReg 0).toNat < ((startRegs 0 [] 5 6).getReg 1).toNat := by decide

/-- SubWritesTheDifferenceModulo256, LogicOpsWorkBitByBit, ShlShiftsByTheWholeAmount,
ShrShiftsByTheWholeAmount, with the amount 8 of the last clause. -/
theorem witness_extended_block :
    (startExt [] 5 8).config.wf = true ∧ (startExt [] 5 8).config.aluExt = true ∧
    8 ≤ ((startExt [] 5 8).getReg 1).toNat := by decide

/-- SUB in a base block, and ADD in a block whose opcode map alone was changed. -/
theorem witness_SelectWithoutFunctionRaisesAluUnsupported :
    (∀ f ∈ AluFn.all, State.reset.config.has f.mnemonic = true →
      State.reset.config.aluMap.byteOf f ≠ State.reset.config.opcodeMap.byteOf (Instr.sub 0 1).mnemonic) ∧
    (∀ f ∈ AluFn.all, AluMap.ls8.byteOf f ≠ ({ OpcodeMap.ls8 with add := 0xA3 }).byteOf .add) := by decide

theorem witness_DecodedInstructionsNeverRaiseAluUnsupported :
    State.reset.config.wf = true ∧ (Instr.add 0 8).wf State.reset.config = true ∧
    exec (.add 0 8) State.reset = .next (State.reset.raise (.regRange 8)) :=
  ⟨by decide, by decide, rfl⟩

/-- Every clause of RegisterByteOutOfRangeRaises at its boundary; both flag clauses. -/
theorem witness_RegisterByteOutOfRangeRaises :
    8 ≤ (8 : Byte).toNat ∧ (State.reset.setFl 1).fl = 0x01 ∧ State.reset.fl ≠ 0x01 ∧
    (7 : Byte).toNat < 8 ∧ 8 ≤ (255 : Byte).toNat := by decide

/-- The step clause of PushStoresTheRegisterBelowSp, with the write on its own operand byte. -/
theorem witness_PushStoresTheRegisterBelowSp :
    (start 0xF2 [0x45, 7]).runState = .running ∧ (start 0xF2 [0x45, 7]).config.opcodeMap = .ls8 ∧
    (start 0xF2 [0x45, 7]).mem.read 0xF2 = 0x45 ∧ (start 0xF2 [0x45, 7]).mem.read 0xF3 = regByte 7 := by decide

/-- PUSH R7, nothing in between, POP R1. -/
theorem witness_PopAfterPushGivesThePushedValue :
    exec (.push (regByte 7)) State.reset = .next (State.reset.push 0xF4) ∧
    exec (.pop (regByte 1)) (State.reset.push 0xF4) = .next (((State.reset.push 0xF4).drop).setReg 1 0xF4) :=
  ⟨rfl, rfl⟩

/-- CALL R7, nothing in between, RET. -/
theorem witness_RetAfterCallResumesBehindTheCall :
    exec (.call (regByte 7)) State.reset = .next ((State.reset.push 2).setPc 0xF4) ∧
    exec .ret ((State.reset.push 2).setPc 0xF4) = .next ((((State.reset.push 2).setPc 0xF4).drop).setPc 2) :=
  ⟨rfl, rfl⟩

/-- The flag clauses of JEQ and JNE. -/
theorem witness_jump_clauses : (State.reset.setFl 1).fl = 0b00000001 ∧ State.reset.fl ≠ 0b00000001 := by decide

theorem witness_OnlyCmpWritesFl :
    State.reset.config.wf = true ∧
    exec (.cmp (regByte 0) (regByte 1)) State.reset = .next (State.reset.setFl 1) ∧
    (State.reset.setFl 1).fl ≠ State.reset.fl :=
  ⟨by decide, rfl, by decide⟩

theorem witness_OnlyJeqAndJneReadFl :
    (∀ a, Instr.ret ≠ .jeq a ∧ Instr.ret ≠ .jne a) ∧
    exec .ret State.reset = .next (State.reset.drop.setPc State.reset.top) :=
  ⟨fun _ => ⟨nofun, nofun⟩, rfl⟩

theorem witness_OnlyStackInstructionsTouchSp :
    usesSp .hlt = false ∧ exec .hlt State.reset = .next State.reset.halt := ⟨rfl, rfl⟩

/-- A write of R7, and a move of SP. -/
theorem witness_R7AndSpAreIndependent :
    exec (.ldi (regByte 7) 1) State.reset = .next (State.reset.setReg 7 1) ∧
    (State.reset.setReg 7 1).getReg 7 ≠ State.reset.getReg 7 ∧
    exec (.pop (regByte 7)) State.reset = .next (State.reset.drop.setReg 7 0) ∧
    (State.reset.drop.setReg 7 0).sp ≠ State.reset.sp :=
  ⟨rfl, by decide, rfl, by decide⟩

theorem witness_InstructionsWriteOnlyTheirDestinationRegister :
    exec (.ldi (regByte 3) 1) State.reset = .next (State.reset.setReg 3 1) ∧
    (State.reset.setReg 3 1).getReg 3 ≠ State.reset.getReg 3 := ⟨rfl, by decide⟩

theorem witness_OnlyPushAndCallWriteMemory :
    exec (.push (regByte 7)) State.reset = .next (State.reset.push 0xF4) ∧
    (State.reset.push 0xF4).mem.read 0xF3 ≠ State.reset.mem.read 0xF3 := ⟨rfl, by decide⟩

theorem witness_HandlersKeepLatchesAndParameters :
    exec .hlt State.reset = .next State.reset.halt ∧ step State.reset.halt = .next State.reset.halt := ⟨rfl, rfl⟩

theorem witness_PushedByteIsWhatTheNextFetchReads :
    exec (.push (regByte 7)) State.reset = .next (State.reset.push 0xF4) ∧
    (State.reset.push 0xF4).runState = .running ∧
    step { State.reset.push 0xF4 with pc := 0xF4 - 1 } =
      .next (got (step { State.reset.push 0xF4 with pc := 0xF4 - 1 })) :=
  ⟨rfl, rfl, got_next (by decide)⟩

/-- BootStartsFromTheResetValues and LoadPutsTheImageAtAddressZero: the longest image, and one byte more. -/
theorem witness_image_lengths :
    (List.replicate 256 (1 : Byte)).length ≤ 256 ∧ 256 < (List.replicate 257 (1 : Byte)).length := by
  rw [List.length_replicate, List.length_replicate]
  decide

theorem witness_EveryStepKeepsTheInvariant :
    State.Inv (start 0 [0x82, 0, 8]) ∧
    step (start 0 [0x82, 0, 8]) = .next (got (step (start 0 [0x82, 0, 8]))) :=
  ⟨⟨by decide, by decide, by decide, by decide, by decide⟩, got_next (by decide)⟩

theorem witness_MemoriesThatReadAlikeAreEqual :
    Memory.wf (Memory.writeBytes [] 0xFF [1, 2]) = true ∧ Memory.wf [(0, 2), (255, 1)] = true ∧
    Memory.writeBytes [] 0xFF [1, 2] = [(0, 2), (255, 1)] := by decide

theorem witness_RstGivesTheResetStateFromAnyState : (Inputs.mk true true true 0 9).rst = true := rfl

/-- The three clauses of HostWritesOnlyBetweenSteps. -/
theorem witness_HostWritesOnlyBetweenSteps :
    (Inputs.mk false true true 0 9).stepEn = true ∧ (Inputs.mk false false true 0 9).ldWe = true ∧
    (Inputs.mk false false false 0 9).ldWe = false := ⟨rfl, rfl, rfl⟩

/-- OutputPortsShowTheStep: a PRN step and a faulting one. -/
theorem witness_OutputPortsShowTheStep :
    boundary ⟨false, true, false, 0, 0⟩ (start 0 [0x47, 7]) = .next (got (step (start 0 [0x47, 7]))) ∧
    (outputs ⟨false, true, false, 0, 0⟩ (start 0 [0x47, 7]) (got (step (start 0 [0x47, 7])))).out = some 0xF4 ∧
    boundary ⟨false, true, false, 0, 0⟩ (start 0 [0x47, 8]) = .next (got (step (start 0 [0x47, 8]))) ∧
    (got (step (start 0 [0x47, 8]))).runState = .faulted :=
  ⟨got_next (by decide), by decide, got_next (by decide), by decide⟩

end Sys2Proof.Tests
end

section
/-! PROOFS. What an instruction leaves unchanged: every register but its destination (10_state.md R22), and SP
unless it is a stack instruction (10_state.md R26). R7 and SP then share only their reset value (R21). -/

namespace Sys2Proof.Machine

open Sys2Proof.Laws.Decode

/-! ## The destination register -/

theorem eq_cmp_of_mnemonic_eq_cmp {f : AluFn} (h : f.mnemonic = .cmp) : f = .cmp := by
  cases f with
  | cmp => rfl
  | _ => cases h

/-- Every ALU instruction but CMP names its destination by its first operand byte. -/
theorem destOf_of_alu {i : Instr} {m : Mnemonic} {a b : Byte} (h : aluOperands i = some (m, a, b))
    (hm : m ≠ .cmp) : destOf i = some a := by
  cases i with
  | cmp a' b' => cases h; exact absurd rfl hm
  | _ => simp_all [aluOperands, destOf]

@[simp] theorem aluWritten_cmp_getReg (s : State) (j k : Fin 8) (va vb : Byte) :
    (s.aluWritten .cmp j va vb).getReg k = s.getReg k := rfl

theorem aluWritten_getReg_of_ne (s : State) (f : AluFn) (j k : Fin 8) (va vb : Byte) (h : k ≠ j) :
    (s.aluWritten f j va vb).getReg k = s.getReg k := by
  unfold State.aluWritten
  split
  · rfl
  · exact State.getReg_setReg_of_ne s j k _ h

theorem Effect.getReg_of_not_dest {s t : State} {i : Instr} {k : Fin 8} (hwf : s.config.wf = true)
    (h : Effect s i t) (hk : destOf i ≠ some (regByte k)) : t.getReg k = s.getReg k := by
  cases h with
  | ldi j imm =>
    have hkj : k ≠ j := by rintro rfl; exact hk rfl
    exact State.getReg_setReg_of_ne s j k imm hkj
  | pop j =>
    have hkj : k ≠ j := by rintro rfl; exact hk rfl
    exact State.getReg_setReg_of_ne s.drop j k s.top hkj
  | alu _ m f j l hi hf =>
    by_cases hcmp : f = .cmp
    · subst hcmp
      exact aluWritten_cmp_getReg s j k _ _
    · have hm : m ≠ .cmp := fun hm =>
        hcmp (eq_cmp_of_mnemonic_eq_cmp ((aluSelect_own hwf hf).trans hm))
      have hkj : k ≠ j := by rintro rfl; exact hk (destOf_of_alu hi hm)
      exact aluWritten_getReg_of_ne s f j k _ _ hkj
  | _ => rfl

/-- An instruction, faulting or not, leaves every register that is not its destination (10_state.md R22). Under
tables that disagree a CMP could select a function that writes a register, hence `hwf`. -/
theorem exec_getReg_of_not_dest {s t : State} {i : Instr} {k : Fin 8} (hwf : s.config.wf = true)
    (h : exec i s = .next t) (hk : destOf i ≠ some (regByte k)) : t.getReg k = s.getReg k := by
  rcases exec_next h with ⟨e, _, rfl⟩ | heff
  · exact State.raise_getReg s e k
  · exact heff.getReg_of_not_dest hwf hk

/-! ## The stack pointer -/

theorem Effect.sp_of_not_usesSp {s t : State} {i : Instr} (h : Effect s i t) (hu : usesSp i = false) :
    t.sp = s.sp := by
  cases h with
  | push | pop | call | ret => cases hu
  | alu _ m f j k => exact aluWritten_sp s f j _ _
  | _ => rfl

/-- An instruction, faulting or not, that is no stack instruction leaves SP (10_state.md R26). -/
theorem exec_sp_of_not_usesSp {s t : State} {i : Instr} (h : exec i s = .next t)
    (hu : usesSp i = false) : t.sp = s.sp := by
  rcases exec_next h with ⟨e, _, rfl⟩ | heff
  · exact State.raise_sp s e
  · exact heff.sp_of_not_usesSp hu

/-- POP leaves SP at its incremented value whatever its destination: R7 is not SP (10_state.md R21). -/
theorem exec_pop_sp {s t : State} {j : Fin 8} (h : exec (.pop (regByte j)) s = .next t) :
    t.sp = s.sp + 1 := by
  have ht : s.drop.setReg j s.top = t := Host.Outcome.next.inj ((execPop_regByte s j).symm.trans h)
  rw [← ht, State.setReg_sp, State.drop_sp]

/-- Settles O42: by the frames of the register file and of SP over all instructions. -/
theorem r7AndSpAreIndependent : Obligations.R7AndSpAreIndependent := by
  refine ⟨rfl, rfl, fun s t i hwf h => ⟨?_, ?_, ?_⟩⟩
  · exact not_imp_comm.mp (exec_getReg_of_not_dest hwf h)
  · intro hsp
    by_contra hu
    exact hsp (exec_sp_of_not_usesSp h (Bool.eq_false_of_not_eq_true hu))
  · rintro j rfl
    exact exec_pop_sp h

end Sys2Proof.Machine
end

section
/-! PROOFS. CMP: it writes one of three patterns to the whole of FL and nothing else (41_alu.md R104). -/

namespace Sys2Proof.Machine

open Sys2Proof.Laws.Decode

/-! ## The pattern -/

theorem compareFlags_of_eq {va vb : Byte} (h : va.toNat = vb.toNat) : compareFlags va vb = flEqual :=
  if_pos (BitVec.eq_of_toNat_eq h)

theorem compareFlags_of_gt {va vb : Byte} (h : vb.toNat < va.toNat) : compareFlags va vb = flGreater := by
  have hne : va ≠ vb := by rintro rfl; exact Nat.lt_irrefl _ h
  rw [compareFlags, if_neg hne, if_pos h]

theorem compareFlags_of_lt {va vb : Byte} (h : va.toNat < vb.toNat) : compareFlags va vb = flLess := by
  have hne : va ≠ vb := by rintro rfl; exact Nat.lt_irrefl _ h
  rw [compareFlags, if_neg hne, if_neg (Nat.lt_asymm h)]

/-! ## The instruction -/

/-- CMP is of the base set, so every block has it (00_scope.md R6). -/
theorem exec_cmp_regByte (s : State) (j k : Fin 8) (hwf : s.config.wf = true) :
    exec (.cmp (regByte j) (regByte k)) s =
      .next (s.setFl (compareFlags (s.getReg j) (s.getReg k))) :=
  aluInstr_completes s .cmp j k hwf (has_base s.config rfl)

theorem sameFixed_setFl (s : State) (v : Byte) : SameFixed s (s.setFl v) :=
  ⟨rfl, rfl, rfl, rfl, rfl, rfl, rfl, rfl⟩

/-- Settles O22: CMP is a write of FL alone, with the pattern the order of the two registers chooses. -/
theorem cmpWritesOnePatternToFl : Obligations.CmpWritesOnePatternToFl := by
  intro s hwf
  refine ⟨fun _ _ => rfl, fun j k => ⟨_, exec_cmp_regByte s j k hwf, ?_⟩, ?_, ?_⟩
  · exact ⟨compareFlags_of_eq, compareFlags_of_gt, compareFlags_of_lt,
      State.setFl_getReg s _, rfl, rfl, fun _ => rfl, rfl, sameFixed_setFl s _⟩
  · exact fun _ b => aluInstr_range_a s .cmp b
  · exact fun _ _ => aluInstr_range_b s .cmp

end Sys2Proof.Machine
end

section
/-! PROOFS. PUSH and POP: the byte stored below SP and the byte loaded from it, what each leaves unchanged
(42_stack.md R131, R132), and the step that runs a PUSH. -/

namespace Sys2Proof.Machine

open Sys2Proof.Laws.Decode

/-! ## PUSH -/

theorem sameMemBut_push (s : State) (v : Byte) : SameMemBut (s.sp - 1) s (s.push v) :=
  fun a ha => Memory.read_write_of_ne s.mem (s.sp - 1) a v ha

theorem sameFixed_push (s : State) (v : Byte) : SameFixed s (s.push v) :=
  ⟨rfl, rfl, rfl, rfl, rfl, rfl, rfl, rfl⟩

theorem exec_push_range (s : State) {a : Byte} (h : 8 ≤ a.toNat) :
    exec (.push a) s = .next (s.raise (.regRange a)) := by
  change execPush a s = _
  rw [execPush, readReg_range s h, except_error_bind, commit_error]

/-! ## The step that runs a PUSH -/

/-- The default map has PUSH at 0x45 for both values of `ALU_EXT` and whatever the ALU answers to. -/
theorem decodeRom_push_of_ls8 {c : Config} (h : c.opcodeMap = .ls8) : c.decodeRom 0x45 = some .push := by
  obtain ⟨ext, map, alu⟩ := c
  subst h
  cases ext with
  | false => rfl
  | true => rfl

theorem atPc_push_of_ls8 {s : State} {a : Byte} (hmap : s.config.opcodeMap = .ls8)
    (hop : s.mem.read s.pc = 0x45) (ha : s.mem.read (s.pc + 1) = a) : s.atPc = .instr (.push a) := by
  rw [State.atPc, hop, ha, decode, decodeRom_push_of_ls8 hmap]
  rfl

theorem step_of_push {s : State} {j : Fin 8} (hr : s.runState = .running)
    (h : s.atPc = .instr (.push (regByte j))) :
    step s = .next (s.fetch.push (s.getReg j)).advance := by
  have hexec : exec (.push (regByte j)) s.fetch = .next (s.fetch.push (s.getReg j)) :=
    execPush_regByte s.fetch j
  rw [step_of_instr hr h, hexec, finishStep]

theorem advancedPc_of_running {s : State} (hr : s.runState = .running) (hop : setsPc s.op = false) :
    s.advancedPc = s.pc + BitVec.ofNat 8 (instrLength s.op) :=
  if_pos ⟨hr, hop⟩

/-- The advance goes by the latched opcode, so the pushed byte may land on the PUSH itself (R131). -/
theorem pc_after_step_of_push {s : State} (v : Byte) (hr : s.runState = .running)
    (hop : s.mem.read s.pc = 0x45) : (s.fetch.push v).advance.pc = s.pc + 2 := by
  have hlatched : (s.fetch.push v).op = 0x45 := hop
  have hsets : setsPc (s.fetch.push v).op = false := by rw [hlatched]; rfl
  rw [State.advance_pc, advancedPc_of_running (s := s.fetch.push v) hr hsets, hlatched]
  rfl

/-- Settles O30: PUSH is `State.push` of the register, and its step advances by the latched opcode. -/
theorem pushStoresTheRegisterBelowSp : Obligations.PushStoresTheRegisterBelowSp := by
  intro s
  refine ⟨fun _ => rfl, fun j => ⟨_, execPush_regByte s j, ?_⟩, fun _ => exec_push_range s,
    fun hr hmap hop j hj => ⟨_, step_of_push hr (atPc_push_of_ls8 hmap hop hj), ?_⟩⟩
  · exact ⟨rfl, Memory.read_write_same s.mem _ _, sameMemBut_push s _, State.push_getReg s _,
      rfl, rfl, rfl, sameFixed_push s _⟩
  · exact ⟨pc_after_step_of_push _ hr hop, rfl, Memory.read_write_same s.mem _ _⟩

/-! ## POP -/

theorem sameRegsBut_drop_setReg (s : State) (j : Fin 8) (v : Byte) :
    SameRegsBut j s (s.drop.setReg j v) :=
  fun k hk => State.getReg_setReg_of_ne s.drop j k v hk

theorem sameFixed_drop_setReg (s : State) (j : Fin 8) (v : Byte) : SameFixed s (s.drop.setReg j v) :=
  ⟨rfl, rfl, rfl, rfl, rfl, rfl, rfl, rfl⟩

/-- The fault is taken in the state before the pop, so the step of SP is discarded (R132). -/
theorem exec_pop_range (s : State) {a : Byte} (h : 8 ≤ a.toNat) :
    exec (.pop a) s = .next (s.raise (.regRange a)) := by
  change execPop a s = _
  rw [execPop, writeReg_range s.drop s.top h, commit_error]

/-- Settles O31: POP writes the byte at SP to the register and steps SP up, and no memory changes. -/
theorem popLoadsTheTopOfStack : Obligations.PopLoadsTheTopOfStack := by
  intro s
  refine ⟨fun _ => rfl, fun j => ⟨_, execPop_regByte s j, ?_⟩, fun _ => exec_pop_range s⟩
  exact ⟨State.getReg_setReg_same s.drop j s.top, rfl, sameRegsBut_drop_setReg s j _, fun _ => rfl,
    rfl, rfl, rfl, sameFixed_drop_setReg s j _⟩

end Sys2Proof.Machine
end

section
/-! PROOFS. CALL, RET and JMP: the PC each sets, the return address on the stack, and what each leaves
unchanged (43_control_flow.md R140 to R142). -/

namespace Sys2Proof.Machine

/-! ## Setting PC -/

/-- A write of PC after any other write keeps what that write kept. -/
theorem SameFixed.setPc {s t : State} (h : SameFixed s t) (v : Byte) : SameFixed s (t.setPc v) := h

theorem framePc_setPc (s : State) (v : Byte) : FramePc s (s.setPc v) :=
  ⟨State.setPc_getReg s v, rfl, rfl, fun _ => rfl, rfl, rfl, rfl, rfl, rfl, rfl, rfl, rfl, rfl⟩

/-- The check of the target register, which JMP and the taken JEQ and JNE share. -/
theorem jumpTo_range (s : State) {a : Byte} (h : 8 ≤ a.toNat) : s.jumpTo a = .error (.regRange a) := by
  rw [State.jumpTo, readReg_range s h, except_error_bind]

/-! ## CALL -/

/-- The target is read before the push, so a fault finds nothing pushed (R140). -/
theorem exec_call_range (s : State) {a : Byte} (h : 8 ≤ a.toNat) :
    exec (.call a) s = .next (s.raise (.regRange a)) := by
  change execCall a s = _
  rw [execCall, readReg_range s h, except_error_bind, commit_error]

/-- Settles O33: CALL is a push of PC + 2 followed by a write of PC. -/
theorem callPushesReturnAddressAndJumps : Obligations.CallPushesReturnAddressAndJumps := by
  intro s
  refine ⟨fun _ => rfl, rfl, fun j => ⟨_, execCall_regByte s j, ?_⟩, fun _ => exec_call_range s⟩
  exact ⟨rfl, rfl, Memory.read_write_same s.mem _ _, sameMemBut_push s _, State.push_getReg s s.pcAfter2,
    rfl, rfl, (sameFixed_push s s.pcAfter2).setPc _⟩

/-! ## RET -/

theorem exec_ret (s : State) : exec .ret s = .next (s.drop.setPc s.top) := rfl

theorem sameFixed_drop (s : State) : SameFixed s s.drop := ⟨rfl, rfl, rfl, rfl, rfl, rfl, rfl, rfl⟩

/-- Settles O34: RET is `State.drop` followed by a write of PC with the byte that was on top. -/
theorem retTakesPcFromTheStack : Obligations.RetTakesPcFromTheStack := by
  intro s
  refine ⟨rfl, rfl, _, exec_ret s, ?_⟩
  exact ⟨rfl, rfl, fun _ => rfl, State.drop_getReg s, rfl, rfl, (sameFixed_drop s).setPc _⟩

/-! ## JMP -/

theorem exec_jmp_range (s : State) {a : Byte} (h : 8 ≤ a.toNat) :
    exec (.jmp a) s = .next (s.raise (.regRange a)) := by
  change execJmp a s = _
  rw [execJmp, jumpTo_range s h, commit_error]

/-- Settles O35: JMP is a write of PC alone. -/
theorem jmpSetsPcToTheRegister : Obligations.JmpSetsPcToTheRegister := by
  intro s
  refine ⟨fun _ => rfl, rfl, fun j => ⟨_, execJmp_regByte s j, ?_⟩, fun _ => exec_jmp_range s⟩
  exact ⟨rfl, framePc_setPc s _⟩

end Sys2Proof.Machine
end

section
/-! PROOFS. LDI and PRN: the one write of each, and what it leaves unchanged (44_load_print_halt.md R160,
R161). -/

namespace Sys2Proof.Machine

/-! ## LDI -/

theorem sameFixed_setReg (s : State) (j : Fin 8) (v : Byte) : SameFixed s (s.setReg j v) :=
  ⟨rfl, rfl, rfl, rfl, rfl, rfl, rfl, rfl⟩

theorem frameReg_setReg (s : State) (j : Fin 8) (v : Byte) : FrameReg j s (s.setReg j v) :=
  ⟨fun k => State.getReg_setReg_of_ne s j k v, rfl, rfl, rfl, fun _ => rfl, rfl, sameFixed_setReg s j v⟩

theorem exec_ldi_range (s : State) {a : Byte} (imm : Byte) (h : 8 ≤ a.toNat) :
    exec (.ldi a imm) s = .next (s.raise (.regRange a)) := by
  change execLdi a imm s = _
  rw [execLdi, writeReg_range s imm h, commit_error]

/-- Settles O17: LDI is a write of its destination register alone, with the immediate as it stands. -/
theorem ldiLoadsTheImmediate : Obligations.LdiLoadsTheImmediate := by
  intro s
  refine ⟨fun _ _ => rfl, fun j imm => ⟨_, execLdi_regByte s j imm, ?_⟩, fun _ imm => exec_ldi_range s imm⟩
  exact ⟨State.getReg_setReg_same s j imm, frameReg_setReg s j imm⟩

/-! ## PRN -/

theorem sameFixed_emit (s : State) (v : Byte) : SameFixed s (s.emit v) :=
  ⟨rfl, rfl, rfl, rfl, rfl, rfl, rfl, rfl⟩

/-- The register is read before anything is emitted, so a fault finds the output unchanged (R161). -/
theorem exec_prn_range (s : State) {a : Byte} (h : 8 ≤ a.toNat) :
    exec (.prn a) s = .next (s.raise (.regRange a)) := by
  change execPrn a s = _
  rw [execPrn, readReg_range s h, except_error_bind, commit_error]

/-- Settles O18: PRN is `State.emit` of the register, which appends to the output and writes nothing else. -/
theorem prnEmitsTheRegister : Obligations.PrnEmitsTheRegister := by
  intro s
  refine ⟨fun _ => rfl, fun j => ⟨_, execPrn_regByte s j, ?_⟩, fun _ => exec_prn_range s⟩
  exact ⟨State.emit_output s _, State.emit_getReg s _, rfl, rfl, rfl, fun _ => rfl, sameFixed_emit s _⟩

end Sys2Proof.Machine
end

section
/-! PROOFS. Decoding and encoding: each is the inverse of the other, and an opcode byte tells the length and the
sets-PC column of its instruction (30_encoding.md §1 to §3). -/

namespace Sys2Proof.Laws.Shape

open Sys2Proof

/-- The family `Shape`, of any instruction. -/
theorem shape (i : Instr) : Statement i :=
  match i with
  | .hlt => hlt
  | .ldi a imm => ldi a imm
  | .prn a => prn a
  | .add a b => add a b
  | .mul a b => mul a b
  | .cmp a b => cmp a b
  | .push a => push a
  | .pop a => pop a
  | .call a => call a
  | .ret => ret
  | .jmp a => jmp a
  | .jeq a => jeq a
  | .jne a => jne a
  | .sub a b => sub a b
  | .and a b => and a b
  | .or a b => or a b
  | .xor a b => xor a b
  | .shl a b => shl a b
  | .shr a b => shr a b

theorem operands_length (i : Instr) : i.operands.length = i.mnemonic.operandCount := (shape i).2.1

theorem build_operands (i : Instr) (rest : List Byte) :
    i.mnemonic.build ((i.operands ++ rest).getD 0 0) ((i.operands ++ rest).getD 1 0) = i :=
  (shape i).2.2 rest

end Sys2Proof.Laws.Shape

namespace Sys2Proof.Laws.Decode

open Sys2Proof

/-! ## From bytes to the instruction and back -/

/-- In a block with well-formed tables the byte of an instruction it has decodes to that instruction. -/
theorem decode_byteOf {c : Config} (hwf : c.wf = true) {m : Mnemonic} (hm : c.has m = true) (a b : Byte) :
    decode c (c.opcodeMap.byteOf m) a b = .instr (m.build a b) := by
  rw [decode, decodeRom_byteOf hwf hm]

/-- Settles O3: the ROM finds the instruction by its byte, and the operand bytes build it again. -/
theorem decodeOfEncodeIsTheInstruction : Obligations.DecodeOfEncodeIsTheInstruction := by
  intro c i rest hwf hi
  calc decodeBytes c (encode c i ++ rest)
      = decode c (c.opcodeMap.byteOf i.mnemonic) ((i.operands ++ rest).getD 0 0)
          ((i.operands ++ rest).getD 1 0) := rfl
    _ = .instr (i.mnemonic.build ((i.operands ++ rest).getD 0 0) ((i.operands ++ rest).getD 1 0)) :=
        decode_byteOf hwf hi _ _
    _ = .instr i := congrArg Decoded.instr (Shape.build_operands i rest)

/-- The operand bytes a handler name takes from two bytes, with the bytes it leaves. -/
theorem operands_build_append_drop (m : Mnemonic) (a b : Byte) :
    (m.build a b).operands ++ [a, b].drop (m.build a b).operands.length = [a, b] := by
  cases m <;> rfl

/-- Settles O4: a ROM entry gives its own byte, and the operands built from two bytes are a head of them. -/
theorem encodeOfDecodeIsTheBytes : Obligations.EncodeOfDecodeIsTheBytes := by
  intro c op a b i h
  obtain ⟨m, hrom, rfl⟩ := decode_instr h
  obtain ⟨hhas, hbyte⟩ := decodeRom_some hrom
  constructor
  · rw [Instr.wf, mnemonic_build]
    exact hhas
  · rw [encode, mnemonic_build, hbyte, List.cons_append, operands_build_append_drop]

/-! ## The fields of an opcode byte -/

/-- The instructions with bit 4 set (30_encoding.md R62). -/
theorem mnemonic_setsPc_iff (i : Instr) : i.mnemonic.setsPc = true ↔
    i = .ret ∨ ∃ a, i = .call a ∨ i = .jmp a ∨ i = .jeq a ∨ i = .jne a := by
  cases i <;> simp [Instr.mnemonic, Mnemonic.setsPc]

/-- Settles O5: well-formed tables give each byte the two fields of its instruction. -/
theorem opcodeByteGivesLengthAndSetsPc : Obligations.OpcodeByteGivesLengthAndSetsPc := by
  intro c i hwf
  refine ⟨c.opcodeMap.byteOf i.mnemonic, rfl, ?_, ?_⟩
  · rw [encode, List.length_cons, Shape.operands_length, operandCount_byteOf hwf, Nat.add_comm]
  · rw [setsPc_byteOf hwf, mnemonic_setsPc_iff]

/-! ## The default map -/

theorem base_with_aluExt_wf (ext : Bool) : { Config.base with aluExt := ext }.wf = true := by
  cases ext with
  | false => exact base_wf
  | true => exact extended_wf

/-- Settles O1: the map is well formed with either value of `ALU_EXT`, and every block has the base set. -/
theorem opcodeBytesOfTheBaseMapDecode : Obligations.OpcodeBytesOfTheBaseMapDecode := by
  intro ext a b c
  have hdecode {m : Mnemonic} (hm : m.isExt = false) :
      decode c (c.opcodeMap.byteOf m) a b = .instr (m.build a b) :=
    decode_byteOf (base_with_aluExt_wf ext) (has_base c hm) a b
  exact ⟨hdecode (m := .hlt) rfl, hdecode (m := .ldi) rfl, hdecode (m := .prn) rfl,
    hdecode (m := .add) rfl, hdecode (m := .mul) rfl, hdecode (m := .cmp) rfl,
    hdecode (m := .push) rfl, hdecode (m := .pop) rfl, hdecode (m := .call) rfl,
    hdecode (m := .ret) rfl, hdecode (m := .jmp) rfl, hdecode (m := .jeq) rfl, hdecode (m := .jne) rfl⟩

theorem base_decodeRom_ext :
    ∀ op ∈ ([0xA1, 0xA8, 0xAA, 0xAB, 0xAC, 0xAD] : List Byte), Config.base.decodeRom op = none := by decide

/-- Settles O2: the extended block has the six instructions, and the ROM of the base block no entry for them. -/
theorem extensionBytesDecodeOnlyWithAluExt : Obligations.ExtensionBytesDecodeOnlyWithAluExt := by
  intro a b
  have hdecode (m : Mnemonic) :
      decode .extended (Config.extended.opcodeMap.byteOf m) a b = .instr (m.build a b) :=
    decode_byteOf extended_wf (has_of_aluExt rfl m) a b
  refine ⟨⟨hdecode .sub, hdecode .and, hdecode .or, hdecode .xor, hdecode .shl, hdecode .shr⟩, ?_⟩
  exact fun op hop => decode_of_rom_none a b (base_decodeRom_ext op hop)

end Sys2Proof.Laws.Decode
end

section
/-! PROOFS. What an effect keeps and what a raise records, said once over all instructions, and from them the
frames of an instruction (10_state.md R28, 20_memory.md R43, 41_alu.md R112) and the invariant of a step. -/

namespace Sys2Proof.Machine

open Sys2Proof.Laws.Decode

/-! ## What an effect keeps -/

/-- Every effect keeps the fault registers, the latches and the parameters; the run state only HLT moves. -/
theorem Effect.sameFixed {s t : State} {i : Instr} (h : Effect s i t) :
    SameFixed s { t with runState := s.runState } := by
  cases h with
  | alu _ m f j k =>
    exact ⟨rfl, aluWritten_faultCause s f j _ _, aluWritten_faultPc s f j _ _,
      aluWritten_faultInfo s f j _ _, aluWritten_op s f j _ _, aluWritten_opA s f j _ _,
      aluWritten_opB s f j _ _, aluWritten_config s f j _ _⟩
  | _ => exact ⟨rfl, rfl, rfl, rfl, rfl, rfl, rfl, rfl⟩

theorem Effect.runState_of_ne_hlt {s t : State} {i : Instr} (h : Effect s i t) (hi : i ≠ .hlt) :
    t.runState = s.runState := by
  cases h with
  | hlt => exact absurd rfl hi
  | alu _ m f j k => exact aluWritten_runState s f j _ _
  | _ => rfl

theorem Effect.eq_halt {s t : State} (h : Effect s .hlt t) : t = s.halt := by
  cases h with
  | hlt => rfl
  | alu _ m f j k hi => cases hi

theorem not_faulted_of_running {s : State} (hr : s.runState = .running) : s.runState ≠ .faulted := by
  rw [hr]
  exact nofun

theorem Effect.not_faulted {s t : State} {i : Instr} (h : Effect s i t) (hr : s.runState = .running) :
    t.runState ≠ .faulted := by
  by_cases hi : i = .hlt
  · subst hi
    rw [h.eq_halt]
    exact nofun
  · exact not_faulted_of_running ((h.runState_of_ne_hlt hi).trans hr)

/-- Memory is as before, or PUSH or CALL wrote one byte below SP (20_memory.md R43). -/
theorem Effect.mem_eq {s t : State} {i : Instr} (h : Effect s i t) :
    t.mem = s.mem ∨ (∃ r, i = .push r ∨ i = .call r) ∧ ∃ v, t.mem = s.mem.write (s.sp - 1) v := by
  cases h with
  | push j => exact .inr ⟨⟨_, .inl rfl⟩, _, rfl⟩
  | call j => exact .inr ⟨⟨_, .inr rfl⟩, _, rfl⟩
  | alu _ m f j k => exact .inl (aluWritten_mem s f j _ _)
  | _ => exact .inl rfl

theorem aluWritten_fl_of_ne_cmp (s : State) {f : AluFn} (j : Fin 8) (va vb : Byte) (hf : f ≠ .cmp) :
    (s.aluWritten f j va vb).fl = s.fl := by
  rw [State.aluWritten, if_neg hf, State.setReg_fl]

/-- CMP is the one instruction that has the handler name of CMP. -/
theorem eq_cmp_of_alu {i : Instr} {a b : Byte} (h : aluOperands i = some (.cmp, a, b)) : i = .cmp a b := by
  cases i <;> cases h
  rfl

/-- FL is as before, or CMP wrote one of its patterns (41_alu.md R112). Under tables that disagree another
ALU instruction could select the comparison, hence `hwf`. -/
theorem Effect.fl_eq {s t : State} {i : Instr} (h : Effect s i t) (hwf : s.config.wf = true) :
    t.fl = s.fl ∨ (∃ a b, i = .cmp a b) ∧ ∃ va vb, t.fl = compareFlags va vb := by
  cases h with
  | alu _ m f j k hi hf =>
    by_cases hcmp : f = .cmp
    · subst hcmp
      have hm : Mnemonic.cmp = m := aluSelect_own hwf hf
      subst hm
      exact .inr ⟨⟨_, _, eq_cmp_of_alu hi⟩, _, _, rfl⟩
    · exact .inl (aluWritten_fl_of_ne_cmp s j _ _ hcmp)
  | _ => exact .inl rfl

/-! ## What a raise records -/

theorem exists_aluFn_of_alu {i : Instr} {m : Mnemonic} {a b : Byte}
    (h : aluOperands i = some (m, a, b)) : ∃ f : AluFn, f.mnemonic = m := by
  cases i with
  | add => cases h; exact ⟨.add, rfl⟩
  | mul => cases h; exact ⟨.mul, rfl⟩
  | cmp => cases h; exact ⟨.cmp, rfl⟩
  | sub => cases h; exact ⟨.sub, rfl⟩
  | and => cases h; exact ⟨.and, rfl⟩
  | or => cases h; exact ⟨.or, rfl⟩
  | xor => cases h; exact ⟨.xor, rfl⟩
  | shl => cases h; exact ⟨.shl, rfl⟩
  | shr => cases h; exact ⟨.shr, rfl⟩
  | _ => cases h

/-- With well-formed tables an instruction the block has raises `RegRange` of an operand byte of its own and
nothing else: the ALU answers to its select byte (41_alu.md R101). -/
theorem Raises.regRange {s : State} {i : Instr} {e : Raised} (h : Raises s i e)
    (hwf : s.config.wf = true) (hi : s.config.has i.mnemonic = true) :
    ∃ a ∈ i.regOperands, 8 ≤ a.toNat ∧ e = .regRange a := by
  cases h with
  | range a ha h8 => exact ⟨a, ha, h8, rfl⟩
  | unsupported m a b hop hnone =>
    obtain ⟨f, hf⟩ := exists_aluFn_of_alu hop
    have hm : i.mnemonic = f.mnemonic := (mem_regOperands_of_alu hop).2.trans hf.symm
    have hsome := aluSelect_byteOf hwf f (hm ▸ hi)
    rw [hf, hnone] at hsome
    cases hsome

theorem not_raises_hlt {s : State} {e : Raised} : ¬ Raises s .hlt e := by
  rintro (⟨a, ha, _⟩ | ⟨m, a, b, hi, _⟩)
  · cases ha
  · cases hi

/-! ## The frames of an instruction -/

/-- Settles O28: the one cause a decoded instruction raises is 1, and an effect keeps the fault registers. -/
theorem decodedInstructionsNeverRaiseAluUnsupported :
    Obligations.DecodedInstructionsNeverRaiseAluUnsupported := by
  intro s t i hwf hi h
  rcases exec_next h with ⟨e, hraise, rfl⟩ | heff
  · obtain ⟨a, _, _, rfl⟩ := hraise.regRange hwf hi
    exact .inr rfl
  · obtain ⟨_, hcause, _⟩ := heff.sameFixed
    exact .inl hcause

/-- Settles O39: a raise keeps FL, and an effect that changes it is CMP's. -/
theorem onlyCmpWritesFl : Obligations.OnlyCmpWritesFl := by
  intro s t i hwf h hfl
  rcases exec_next h with ⟨e, _, rfl⟩ | heff
  · exact absurd rfl hfl
  · exact ((heff.fl_eq hwf).resolve_left hfl).1

/-- Settles O43: by the frame of the register file over all instructions. -/
theorem instructionsWriteOnlyTheirDestinationRegister :
    Obligations.InstructionsWriteOnlyTheirDestinationRegister :=
  fun _ _ _ _ hwf h => not_imp_comm.mp (exec_getReg_of_not_dest hwf h)

/-- Settles O44: a raise keeps memory, and an effect that changes it is a write below SP. -/
theorem onlyPushAndCallWriteMemory : Obligations.OnlyPushAndCallWriteMemory := by
  intro s t i a h ha
  rcases exec_next h with ⟨e, _, rfl⟩ | heff
  · exact absurd rfl ha
  · rcases heff.mem_eq with hmem | ⟨hi, v, hmem⟩
    · exact absurd (congrArg (Memory.read · a) hmem) ha
    · refine ⟨?_, hi⟩
      by_contra hne
      rw [hmem] at ha
      exact ha (Memory.read_write_of_ne s.mem _ a v hne)

/-- An instruction, faulting or not, keeps the latches and the parameters (10_state.md R29, R31). -/
theorem exec_keeps_latches_and_config {s t : State} {i : Instr} (h : exec i s = .next t) :
    t.op = s.op ∧ t.opA = s.opA ∧ t.opB = s.opB ∧ t.config = s.config := by
  rcases exec_next h with ⟨e, _, rfl⟩ | heff
  · exact ⟨rfl, rfl, rfl, rfl⟩
  · obtain ⟨_, _, _, _, hkept⟩ := heff.sameFixed
    exact hkept

/-! ## Blocks that do not run -/

theorem terminal_next {s t : State} (h : s.terminal = .next t) : t = s := by
  unfold State.terminal at h
  split at h
  · cases h
  · exact (Host.Outcome.next.inj h).symm

/-- What a step from any state can do: nothing, when the block does not run; else what
`step_running` says. -/
theorem step_next {s t : State} (h : step s = .next t) :
    (s.runState ≠ .running ∧ t = s) ∨ s.runState = .running ∧
      ((∃ i e, s.atPc = .instr i ∧ Raises s.fetch i e ∧ t = s.fetch.raise e) ∨
       (∃ i u, s.atPc = .instr i ∧ Effect s.fetch i u ∧ t = u.advance) ∨
       ∃ op, s.atPc = .unknown op ∧ t = s.fetch.advance) := by
  by_cases hr : s.runState = .running
  · exact .inr ⟨hr, step_running hr h⟩
  · exact .inl ⟨hr, terminal_next ((step_of_not_running hr).symm.trans h)⟩

/-! ## The invariant -/

theorem compareFlags_mem (va vb : Byte) : compareFlags va vb ∈ [0x00, flEqual, flGreater, flLess] := by
  rcases Nat.lt_trichotomy va.toNat vb.toNat with h | h | h
  · rw [compareFlags_of_lt h]; decide
  · rw [compareFlags_of_eq h]; decide
  · rw [compareFlags_of_gt h]; decide

theorem State.Inv.fetch {s : State} (h : s.Inv) : s.fetch.Inv :=
  ⟨h.config_wf, h.mem_wf, h.fl_pattern, h.fault_clear, h.fault_set⟩

theorem State.Inv.advance {s : State} (h : s.Inv) (hr : s.runState ≠ .faulted) : s.advance.Inv :=
  ⟨h.config_wf, h.mem_wf, h.fl_pattern, h.fault_clear, fun hf => absurd hf hr⟩

theorem State.Inv.raise {s : State} {a : Byte} (h : s.Inv) (ha : 8 ≤ a.toNat) :
    (s.raise (.regRange a)).Inv :=
  ⟨h.config_wf, h.mem_wf, h.fl_pattern, fun hr => absurd rfl hr, fun _ => ⟨rfl, rfl, ha⟩⟩

theorem State.Inv.effect {s t : State} {i : Instr} (h : s.Inv) (hr : s.runState = .running)
    (heff : Effect s i t) : t.Inv := by
  obtain ⟨_, hcause, hfpc, hinfo, _, _, _, hconfig⟩ := heff.sameFixed
  obtain ⟨hcause0, hfpc0, hinfo0⟩ := h.fault_clear (not_faulted_of_running hr)
  refine ⟨hconfig ▸ h.config_wf, ?_, ?_, fun _ => ?_, fun hf => absurd hf (heff.not_faulted hr)⟩
  · rcases heff.mem_eq with hmem | ⟨_, v, hmem⟩
    · exact hmem ▸ h.mem_wf
    · exact hmem ▸ Memory.wf_write _ v h.mem_wf
  · rcases heff.fl_eq h.config_wf with hfl | ⟨_, va, vb, hfl⟩
    · exact hfl ▸ h.fl_pattern
    · exact hfl ▸ compareFlags_mem va vb
  · exact ⟨hcause.trans hcause0, hfpc.trans hfpc0, hinfo.trans hinfo0⟩

/-- Settles O50: the fetch, a raise, an effect and the advance each keep the invariant. -/
theorem everyStepKeepsTheInvariant : Obligations.EveryStepKeepsTheInvariant := by
  intro s t hinv h
  rcases step_next h with ⟨_, rfl⟩ | ⟨hr, ⟨i, e, hd, hraise, rfl⟩ | ⟨i, u, hd, heff, rfl⟩ | ⟨op, _, rfl⟩⟩
  · exact hinv
  · obtain ⟨a, _, ha, rfl⟩ := hraise.regRange hinv.config_wf (atPc_instr hd).1
    exact hinv.fetch.raise ha
  · exact (hinv.fetch.effect hr heff).advance (heff.not_faulted hr)
  · exact hinv.fetch.advance (not_faulted_of_running hr)

/-- Settles O49: with the default tables, no memory written, FL 0 and no fault. -/
theorem resetMeetsTheInvariant : Obligations.ResetMeetsTheInvariant :=
  ⟨base_wf, rfl, List.mem_cons_self, fun _ => ⟨rfl, rfl, rfl⟩, nofun⟩

end Sys2Proof.Machine
end

section
/-! PROOFS. The step: what it latches, when it answers, what a fault leaves, the terminal states, and runs that
have come to rest (40_step.md §1 to §3, 60_exceptions.md §2 and §3). -/

namespace Sys2Proof.Machine

open Sys2Proof.Laws.Decode

/-! ## The step of a running block -/

/-- A step of a running block reads its state through the fetch alone. -/
theorem step_eq_of_fetch_eq {s t : State} (hs : s.runState = .running) (ht : t.runState = .running)
    (h : s.fetch = t.fetch) : step s = step t := by
  simp only [step, hs, ht, h]

/-- Settles O13: the fetch overwrites the latches. -/
theorem stepDoesNotDependOnOldLatches : Obligations.StepDoesNotDependOnOldLatches :=
  fun s x y z hr => step_eq_of_fetch_eq (s := { s with op := x, opA := y, opB := z }) hr hr rfl

/-- Settles O12: an unknown opcode runs no handler, and every handler answers. -/
theorem runningStepAlwaysAnswersNext : Obligations.RunningStepAlwaysAnswersNext := by
  intro s hr
  cases hd : s.atPc with
  | unknown op => exact ⟨_, step_of_unknown hr hd⟩
  | instr i =>
    obtain ⟨t, ht⟩ := exec_answers_next i s.fetch
    exact ⟨t.advance, by rw [step_of_instr hr hd, ht, finishStep]⟩

/-- Settles O6: the step is `finishStep` of the handler, which keeps the latched opcode byte. -/
theorem stepRunsTheDecodedInstruction : Obligations.StepRunsTheDecodedInstruction := by
  intro s t i hr hd op hexec
  have hop : t.op = op := (exec_keeps_latches_and_config hexec).1
  have hexec' : exec i s.fetch = .next t := hexec
  rw [step_of_instr hr hd, hexec', finishStep, State.advance, State.advancedPc, hop]
  rfl

theorem step_latches {s t : State} (hr : s.runState = .running) (h : step s = .next t) :
    t.op = s.mem.read s.pc ∧ t.opA = s.mem.read (s.pc + 1) ∧ t.opB = s.mem.read (s.pc + 2) := by
  rcases step_running hr h with ⟨i, e, _, _, rfl⟩ | ⟨i, u, _, heff, rfl⟩ | ⟨op, _, rfl⟩
  · exact ⟨rfl, rfl, rfl⟩
  · obtain ⟨_, _, _, _, hop, hopA, hopB, _⟩ := heff.sameFixed
    exact ⟨hop, hopA, hopB⟩
  · exact ⟨rfl, rfl, rfl⟩

/-- Settles O7: the fetch latches the bytes, and no raise, effect or advance writes a latch. -/
theorem everyStepLatchesTheBytesBeforeIt : Obligations.EveryStepLatchesTheBytesBeforeIt :=
  fun _ _ => step_latches

/-- Settles O47: the fetch after a PUSH reads memory as the PUSH left it. -/
theorem pushedByteIsWhatTheNextFetchReads : Obligations.PushedByteIsWhatTheNextFetchReads := by
  intro s t u j hpush hr h
  obtain rfl := Host.Outcome.next.inj ((execPush_regByte s j).symm.trans hpush)
  obtain ⟨hop, _⟩ := step_latches (s := { s.push (s.getReg j) with pc := s.sp - 1 }) hr h
  exact hop.trans (Memory.read_write_same s.mem _ _)

/-- Settles O46: no handler writes the parameters, and the fetch and the advance do not either. -/
theorem handlersKeepLatchesAndParameters : Obligations.HandlersKeepLatchesAndParameters := by
  refine ⟨fun s t i => exec_keeps_latches_and_config, fun s t h => ?_⟩
  rcases step_next h with ⟨_, rfl⟩ | ⟨_, ⟨i, e, _, _, rfl⟩ | ⟨i, u, _, heff, rfl⟩ | ⟨op, _, rfl⟩⟩
  · rfl
  · rfl
  · obtain ⟨_, _, _, _, _, _, _, hconfig⟩ := heff.sameFixed
    exact hconfig
  · rfl

/-! ## The end of a run -/

/-- Settles O15: of the three things a step can do, only the effect of HLT leaves HALTED. -/
theorem onlyHltHalts : Obligations.OnlyHltHalts := by
  intro s t hr h
  rcases step_running hr h with ⟨i, e, hd, hraise, rfl⟩ | ⟨i, u, hd, heff, rfl⟩ | ⟨op, hd, rfl⟩
  · have hi : i ≠ .hlt := by rintro rfl; exact not_raises_hlt hraise
    simp [hd, hi]
  · by_cases hi : i = .hlt
    · subst hi
      simp [hd, heff.eq_halt]
    · simp [hd, hi, heff.runState_of_ne_hlt hi, hr]
  · simp [hd, hr]

/-! ## Precise faults -/

theorem mem_regOperands_build {m : Mnemonic} {x y a : Byte} (h : a ∈ (m.build x y).regOperands) :
    a = x ∨ a = y := by
  cases m <;> simp_all [Mnemonic.build, Instr.regOperands]

/-- A register operand of the instruction at PC is one of the two bytes behind its opcode byte. -/
theorem mem_regOperands_atPc {s : State} {i : Instr} {a : Byte} (hd : s.atPc = .instr i)
    (ha : a ∈ i.regOperands) : a = s.mem.read (s.pc + 1) ∨ a = s.mem.read (s.pc + 2) := by
  obtain ⟨m, _, rfl⟩ := decode_instr hd
  exact mem_regOperands_build ha

/-- Settles O16: a step that ends FAULTED is a raise in the fetched state, of an operand byte. -/
theorem faultedStepIsPrecise : Obligations.FaultedStepIsPrecise := by
  intro s t hr hwf h hf
  rcases step_running hr h with ⟨i, e, hd, hraise, rfl⟩ | ⟨i, u, _, heff, rfl⟩ | ⟨op, _, rfl⟩
  · obtain ⟨a, ha, h8, rfl⟩ := hraise.regRange hwf (atPc_instr hd).1
    exact ⟨rfl, rfl, h8, mem_regOperands_atPc hd ha, fun _ => rfl, rfl, rfl, rfl, rfl, rfl, rfl⟩
  · exact absurd hf (heff.not_faulted hr)
  · exact absurd hf (not_faulted_of_running hr)

/-! ## Blocks that do not run -/

theorem terminal_of_not_reserved {s : State} (h : ¬ (s.runState = .faulted ∧ s.faultCause = 3)) :
    s.terminal = .next s := if_neg h

theorem terminal_of_reserved {s : State} (h : s.runState = .faulted ∧ s.faultCause = 3) :
    s.terminal = .refused .reservedFaultCause := if_pos h

theorem step_of_terminal {s : State}
    (h : s.runState = .halted ∨ s.runState = .faulted ∧ s.faultCause ≠ 3) : step s = .next s := by
  rcases h with hr | ⟨hr, hcause⟩
  · rw [step_of_not_running (by simp [hr]), terminal_of_not_reserved (by simp [hr])]
  · rw [step_of_not_running (by simp [hr]), terminal_of_not_reserved fun hreserved => hcause hreserved.2]

/-- Settles O11: a running block answers next, and a terminal one is refused for the reserved cause alone. -/
theorem reservedFaultCauseIsRefused : Obligations.ReservedFaultCauseIsRefused := by
  intro s
  constructor
  · rintro ⟨r, h⟩
    by_contra hreserved
    by_cases hr : s.runState = .running
    · obtain ⟨t, ht⟩ := runningStepAlwaysAnswersNext s hr
      cases h.symm.trans ht
    · rw [step_of_not_running hr, terminal_of_not_reserved hreserved] at h
      cases h
  · intro h
    exact ⟨_, (step_of_not_running (by simp [h.1])).trans (terminal_of_reserved h)⟩

/-! ## Runs that have come to rest -/

theorem run_succ {s t : State} (h : step s = .next t) (n : Nat) :
    Host.Core.run Sys2Proof.core (n + 1) s = Host.Core.run Sys2Proof.core n t := by
  have hstep : Sys2Proof.core.step s = .next t := h
  simp only [Host.Core.run, hstep]

/-- A state that a step maps to itself stays for ever. -/
theorem run_of_step_self {s : State} (h : step s = .next s) (n : Nat) :
    Host.Core.run Sys2Proof.core n s = .next s := by
  induction n with
  | zero => rfl
  | succ n ih => rw [run_succ h, ih]

/-- Settles O10: a terminal state is one a step maps to itself. -/
theorem terminalStatesTakeNoStep : Obligations.TerminalStatesTakeNoStep :=
  fun _ n h => run_of_step_self (step_of_terminal h) n

/-! ## Unknown opcodes -/

theorem atPc_of_rom_none {s : State} (h : s.config.decodeRom (s.mem.read s.pc) = none) :
    s.atPc = .unknown (s.mem.read s.pc) := decode_of_rom_none _ _ h

theorem advancedPc_of_setsPc {s : State} (h : setsPc s.op = true) : s.advancedPc = s.pc :=
  if_neg fun hadvance => Bool.noConfusion (h.symm.trans hadvance.2)

theorem advancedPc_of_not_running {s : State} (h : s.runState ≠ .running) : s.advancedPc = s.pc :=
  if_neg fun hadvance => h hadvance.1

/-- Settles O8: the step is the fetch and the advance. -/
theorem unknownOpcodeOnlyAdvancesPc : Obligations.UnknownOpcodeOnlyAdvancesPc :=
  fun s hr hrom hclear => ⟨s.fetch.advance, step_of_unknown hr (atPc_of_rom_none hrom),
    advancedPc_of_running (s := s.fetch) hr hclear, rfl⟩

theorem advance_of_setsPc {s : State} (h : setsPc s.op = true) : s.advance = s := by
  rw [State.advance, advancedPc_of_setsPc h]

/-- The step of an unknown opcode with bit 4 set is the fetch alone (40_step.md R87). -/
theorem step_of_unknown_setsPc {s : State} (hr : s.runState = .running)
    (hrom : s.config.decodeRom (s.mem.read s.pc) = none) (hset : setsPc (s.mem.read s.pc) = true) :
    step s = .next s.fetch := by
  rw [step_of_unknown hr (atPc_of_rom_none hrom), advance_of_setsPc (s := s.fetch) hset]

/-- Settles O9: the first step latches the bytes, and the fetched state steps to itself. -/
theorem unknownSetsPcOpcodeHangsForever : Obligations.UnknownSetsPcOpcodeHangsForever := by
  intro s n hr hrom hset
  have hself : step s.fetch = .next s.fetch := step_of_unknown_setsPc (s := s.fetch) hr hrom hset
  cases n with
  | zero => exact ⟨s, rfl, rfl⟩
  | succ n =>
    refine ⟨s.fetch, ?_, rfl⟩
    rw [run_succ (step_of_unknown_setsPc hr hrom hset), run_of_step_self hself]

/-! ## HLT -/

theorem advance_of_not_running {s : State} (h : s.runState ≠ .running) : s.advance = s := by
  rw [State.advance, advancedPc_of_not_running h]

theorem step_of_hlt {s : State} (hr : s.runState = .running) (hd : s.atPc = .instr .hlt) :
    step s = .next s.fetch.halt := by
  have hexec : exec .hlt s.fetch = .next s.fetch.halt := rfl
  rw [step_of_instr hr hd, hexec, finishStep, advance_of_not_running (s := s.fetch.halt) nofun]

/-- Settles O19: the step of HLT is the fetch and the halt, and HALTED is terminal. -/
theorem hltHaltsWithPcKept : Obligations.HltHaltsWithPcKept := by
  refine fun s => ⟨rfl, rfl, rfl, fun hr hd => ⟨s.fetch.halt, rfl, fun n => ?_⟩⟩
  rw [run_succ (step_of_hlt hr hd), run_of_step_self (step_of_terminal (.inl rfl))]

end Sys2Proof.Machine
end

section
/-! PROOFS. PC after a step, in every case (10_state.md R25, 40_step.md R84). -/

namespace Sys2Proof.Machine

open Sys2Proof.Laws.Decode

/-! ## The PC an effect leaves -/

/-- Only the instructions with the sets-PC bit write PC (30_encoding.md R62). -/
theorem Effect.pc_of_not_setsPc {s t : State} {i : Instr} (h : Effect s i t)
    (hi : i.mnemonic.setsPc = false) : t.pc = s.pc := by
  cases h with
  | call | ret | jmp | jeqTaken | jeqNot | jneTaken | jneNot => cases hi
  | alu _ m f j k => exact aluWritten_pc s f j _ _
  | _ => rfl

theorem Effect.pc_of_ret {s t : State} (h : Effect s .ret t) : t.pc = s.top := by
  cases h with
  | alu _ m f j k hi => cases hi
  | ret => rfl

theorem Effect.pc_of_call {s t : State} {a : Byte} (h : Effect s (.call a) t) :
    ∃ j, a = regByte j ∧ t.pc = s.getReg j := by
  cases h with
  | alu _ m f j k hi => cases hi
  | call j => exact ⟨j, rfl, rfl⟩

theorem Effect.pc_of_jmp {s t : State} {a : Byte} (h : Effect s (.jmp a) t) :
    ∃ j, a = regByte j ∧ t.pc = s.getReg j := by
  cases h with
  | alu _ m f j k hi => cases hi
  | jmp j => exact ⟨j, rfl, rfl⟩

theorem Effect.pc_of_jeq {s t : State} {a : Byte} (h : Effect s (.jeq a) t) :
    if s.fl = 0x01 then ∃ j, a = regByte j ∧ t.pc = s.getReg j else t.pc = s.pc + 2 := by
  cases h with
  | alu _ m f j k hi => cases hi
  | jeqTaken j hfl => exact if_pos hfl ▸ ⟨j, rfl, rfl⟩
  | jeqNot _ hfl => exact if_neg hfl ▸ rfl

theorem Effect.pc_of_jne {s t : State} {a : Byte} (h : Effect s (.jne a) t) :
    if s.fl = 0x01 then t.pc = s.pc + 2 else ∃ j, a = regByte j ∧ t.pc = s.getReg j := by
  cases h with
  | alu _ m f j k hi => cases hi
  | jneTaken j hfl => exact if_neg hfl ▸ ⟨j, rfl, rfl⟩
  | jneNot _ hfl => exact if_pos hfl ▸ rfl

/-! ## The advance after it -/

section Advance

variable {s u : State} {i : Instr} (heff : Effect s i u) (hwf : s.config.wf = true)
  (hop : s.config.opcodeMap.byteOf i.mnemonic = s.op)

include heff hwf hop

/-- An effect leaves the opcode byte latched, and its bit 4 is the sets-PC column of the instruction. -/
theorem Effect.setsPc_op : setsPc u.op = i.mnemonic.setsPc := by
  obtain ⟨_, _, _, _, hkept, _⟩ := heff.sameFixed
  have hu : u.op = s.op := hkept
  rw [hu, ← hop, setsPc_byteOf hwf]

theorem Effect.advance_pc_of_setsPc (hi : i.mnemonic.setsPc = true) : u.advance.pc = u.pc :=
  advancedPc_of_setsPc ((heff.setsPc_op hwf hop).trans hi)

theorem Effect.advance_pc_of_not_setsPc (hr : s.runState = .running) (hne : i ≠ .hlt)
    (hi : i.mnemonic.setsPc = false) :
    u.advance.pc = s.pc + BitVec.ofNat 8 (1 + i.operands.length) := by
  obtain ⟨_, _, _, _, hkept, _⟩ := heff.sameFixed
  have hlength : instrLength u.op = 1 + i.operands.length := by
    have hu : u.op = s.op := hkept
    rw [instrLength, hu, ← hop, operandCount_byteOf hwf, Laws.Shape.operands_length]
  have hrunning : u.runState = .running := (heff.runState_of_ne_hlt hne).trans hr
  rw [State.advance_pc, advancedPc_of_running hrunning ((heff.setsPc_op hwf hop).trans hi), hlength,
    heff.pc_of_not_setsPc hi]

end Advance

theorem pc_after_unknown {s : State} {op : Byte} (hr : s.runState = .running)
    (hd : s.atPc = .unknown op) : s.fetch.advance.pc =
      if setsPc op then s.pc else s.pc + BitVec.ofNat 8 (1 + operandCount op) := by
  obtain ⟨_, rfl⟩ := decode_unknown hd
  split
  next hset => exact advancedPc_of_setsPc (s := s.fetch) hset
  next hclear => exact advancedPc_of_running (s := s.fetch) hr (Bool.eq_false_of_not_eq_true hclear)

/-- Settles O14: a raise keeps PC, the five instructions with bit 4 set choose it themselves, and after all
others but HLT the advance moves it on by the length the opcode byte gives. -/
theorem pcAfterEveryStep : Obligations.PcAfterEveryStep := by
  intro s t hr hwf h
  rcases step_running hr h with ⟨i, e, _, _, rfl⟩ | ⟨i, u, hd, heff, rfl⟩ | ⟨op, hd, rfl⟩
  · exact ⟨fun _ => rfl, fun hf => absurd rfl hf⟩
  · refine ⟨fun hf => absurd hf (heff.not_faulted hr), fun _ => ?_⟩
    have hop := (atPc_instr hd).2
    rw [hd]
    cases i with
    | hlt => rw [heff.eq_halt]; exact advancedPc_of_not_running (s := s.fetch.halt) nofun
    | ret => exact (heff.advance_pc_of_setsPc hwf hop rfl).trans heff.pc_of_ret
    | call a => exact heff.advance_pc_of_setsPc hwf hop rfl ▸ heff.pc_of_call
    | jmp a => exact heff.advance_pc_of_setsPc hwf hop rfl ▸ heff.pc_of_jmp
    | jeq a => exact heff.advance_pc_of_setsPc hwf hop rfl ▸ heff.pc_of_jeq
    | jne a => exact heff.advance_pc_of_setsPc hwf hop rfl ▸ heff.pc_of_jne
    | _ => exact heff.advance_pc_of_not_setsPc hwf hop hr nofun rfl
  · refine ⟨fun hf => absurd hf (not_faulted_of_running hr), fun _ => ?_⟩
    rw [hd]
    exact pc_after_unknown hr hd

end Sys2Proof.Machine
end

section
/-! PROOFS. The ALU instructions: what each writes, with its frame, and the select that names no function
(41_alu.md §1 to §3). -/

namespace Sys2Proof.Machine

open Sys2Proof.Laws.Decode

/-! ## A result in its register -/

theorem aluWritten_of_ne_cmp (s : State) {f : AluFn} (j : Fin 8) (va vb : Byte) (hf : f ≠ .cmp) :
    s.aluWritten f j va vb = s.setReg j (aluCompute f va vb).y := if_neg hf

/-- With well-formed tables an ALU instruction the block has, but CMP, writes the result of its own function to
its first register and nothing else. -/
theorem exec_alu_writes {s : State} {i : Instr} {f : AluFn} {j k : Fin 8} (hwf : s.config.wf = true)
    (hf : s.config.has f.mnemonic = true) (hcmp : f ≠ .cmp)
    (hi : aluOperands i = some (f.mnemonic, regByte j, regByte k)) :
    ∃ t, exec i s = .next t ∧ t.getReg j = (aluCompute f (s.getReg j) (s.getReg k)).y ∧
      FrameReg j s t := by
  refine ⟨_, (exec_alu hi s).trans (aluInstr_completes s f j k hwf hf), ?_⟩
  rw [aluWritten_of_ne_cmp s j _ _ hcmp]
  exact ⟨State.getReg_setReg_same s j _, frameReg_setReg s j _⟩

/-- Settles O20: ADD is of the base set and writes `+8`. -/
theorem addWritesTheSumModulo256 : Obligations.AddWritesTheSumModulo256 := by
  intro s j k hwf
  obtain ⟨t, ht, hv, hframe⟩ :=
    exec_alu_writes (i := .add (regByte j) (regByte k)) (f := .add) hwf (has_base _ rfl) nofun rfl
  exact ⟨t, ht, hv ▸ BitVec.toNat_add .., hframe⟩

/-- Settles O21: MUL is of the base set and writes `*8`. -/
theorem mulWritesTheProductModulo256 : Obligations.MulWritesTheProductModulo256 := by
  intro s j k hwf
  obtain ⟨t, ht, hv, hframe⟩ :=
    exec_alu_writes (i := .mul (regByte j) (regByte k)) (f := .mul) hwf (has_base _ rfl) nofun rfl
  exact ⟨t, ht, hv ▸ BitVec.toNat_mul .., hframe⟩

theorem toNat_sub_byte (x y : Byte) : (x - y).toNat = (x.toNat + 256 - y.toNat) % 256 := by
  rw [BitVec.toNat_sub]
  omega

/-- Settles O23: SUB writes `-8`. -/
theorem subWritesTheDifferenceModulo256 : Obligations.SubWritesTheDifferenceModulo256 := by
  intro s j k hwf hext
  obtain ⟨t, ht, hv, hframe⟩ :=
    exec_alu_writes (i := .sub (regByte j) (regByte k)) (f := .sub) hwf (has_of_aluExt hext _) nofun rfl
  exact ⟨t, ht, hv ▸ toNat_sub_byte .., hframe⟩

/-- Settles O24: the three write the bitwise operations of bytes. -/
theorem logicOpsWorkBitByBit : Obligations.LogicOpsWorkBitByBit := by
  intro s j k hwf hext
  refine ⟨?_, ?_, ?_⟩
  · obtain ⟨t, ht, hv, hframe⟩ :=
      exec_alu_writes (i := .and (regByte j) (regByte k)) (f := .and) hwf (has_of_aluExt hext _) nofun rfl
    exact ⟨t, ht, hframe, fun n => hv ▸ BitVec.getLsbD_and⟩
  · obtain ⟨t, ht, hv, hframe⟩ :=
      exec_alu_writes (i := .or (regByte j) (regByte k)) (f := .or) hwf (has_of_aluExt hext _) nofun rfl
    exact ⟨t, ht, hframe, fun n => hv ▸ BitVec.getLsbD_or⟩
  · obtain ⟨t, ht, hv, hframe⟩ :=
      exec_alu_writes (i := .xor (regByte j) (regByte k)) (f := .xor) hwf (has_of_aluExt hext _) nofun rfl
    exact ⟨t, ht, hframe, fun n => hv ▸ BitVec.getLsbD_xor⟩

theorem toNat_shl_byte (x : Byte) (n : Nat) : (x <<< n).toNat = x.toNat * 2 ^ n % 256 := by
  rw [BitVec.toNat_shiftLeft, Nat.shiftLeft_eq]

theorem toNat_shr_byte (x : Byte) (n : Nat) : (x >>> n).toNat = x.toNat / 2 ^ n := by
  rw [BitVec.toNat_ushiftRight, Nat.shiftRight_eq_div_pow]

/-- Settles O25: the amount is the whole byte, so from 8 on every bit is shifted out. -/
theorem shlShiftsByTheWholeAmount : Obligations.ShlShiftsByTheWholeAmount := by
  intro s j k hwf hext
  obtain ⟨t, ht, hv, hframe⟩ :=
    exec_alu_writes (i := .shl (regByte j) (regByte k)) (f := .shl) hwf (has_of_aluExt hext _) nofun rfl
  exact ⟨t, ht, hv ▸ toNat_shl_byte .., fun h8 => hv.trans (BitVec.shiftLeft_eq_zero h8), hframe⟩

/-- Settles O26: the shift is logical, by the whole amount byte. -/
theorem shrShiftsByTheWholeAmount : Obligations.ShrShiftsByTheWholeAmount := by
  intro s j k hwf hext
  obtain ⟨t, ht, hv, hframe⟩ :=
    exec_alu_writes (i := .shr (regByte j) (regByte k)) (f := .shr) hwf (has_of_aluExt hext _) nofun rfl
  exact ⟨t, ht, hv ▸ toNat_shr_byte .., fun h8 => hv.trans (BitVec.ushiftRight_eq_zero h8), hframe⟩

/-! ## A select without a function -/

theorem aluSelect_eq_none {c : Config} {sel : Byte}
    (h : ∀ f : AluFn, c.has f.mnemonic = true → c.aluMap.byteOf f ≠ sel) : aluSelect c sel = none := by
  refine List.find?_eq_none.mpr fun f _ hf => ?_
  obtain ⟨hhas, hsel⟩ : c.has f.mnemonic = true ∧ c.aluMap.byteOf f = sel := by simpa using hf
  exact h f hhas hsel

/-- Settles O27: the select finds nothing, and the operands being in range, that is what the instruction raises. -/
theorem selectWithoutFunctionRaisesAluUnsupported :
    Obligations.SelectWithoutFunctionRaisesAluUnsupported := by
  intro s j k i hi hnone
  have hop : aluOperands i = some (i.mnemonic, regByte j, regByte k) := by
    revert i
    simp [aluOperands, Instr.mnemonic]
  rw [exec_alu hop]
  exact aluInstr_unsupported s _ j k (aluSelect_eq_none hnone)

end Sys2Proof.Machine
end

section
/-! PROOFS. The jumps on FL and the range check of every instruction (43_control_flow.md R143, R144,
60_exceptions.md R181, R182). -/

namespace Sys2Proof.Machine

/-! ## JEQ and JNE -/

/-- JEQ taken is a JMP, with its register check (43_control_flow.md R143). -/
theorem exec_jeq_of_equal {s : State} (a : Byte) (hfl : s.fl = flEqual) :
    exec (.jeq a) s = exec (.jmp a) s := by
  change execJeq a s = execJmp a s
  rw [execJeq, State.lastEqual, if_pos (beq_iff_eq.mpr hfl), execJmp]

/-- JNE taken is a JMP, with its register check (43_control_flow.md R144). -/
theorem exec_jne_of_not_equal {s : State} (a : Byte) (hfl : s.fl ≠ flEqual) :
    exec (.jne a) s = exec (.jmp a) s := by
  change execJne a s = execJmp a s
  rw [execJne, State.lastEqual, if_neg (mt beq_iff_eq.mp hfl), execJmp]

theorem exec_jeq_range {s : State} {a : Byte} (hfl : s.fl = flEqual) (h : 8 ≤ a.toNat) :
    exec (.jeq a) s = .next (s.raise (.regRange a)) :=
  (exec_jeq_of_equal a hfl).trans (exec_jmp_range s h)

theorem exec_jne_range {s : State} {a : Byte} (hfl : s.fl ≠ flEqual) (h : 8 ≤ a.toNat) :
    exec (.jne a) s = .next (s.raise (.regRange a)) :=
  (exec_jne_of_not_equal a hfl).trans (exec_jmp_range s h)

/-- Settles O36: taken, JEQ is a jump with the check of its register; not taken, a write of PC + 2. -/
theorem jeqJumpsExactlyOnEqual : Obligations.JeqJumpsExactlyOnEqual := by
  refine fun s => ⟨fun _ => rfl, rfl, fun hfl => ⟨fun j => ?_, fun a => exec_jeq_range hfl⟩, fun hfl a => ?_⟩
  · exact ⟨_, execJeq_taken s j hfl, rfl, framePc_setPc s _⟩
  · exact ⟨_, execJeq_not_taken s a hfl, rfl, framePc_setPc s _⟩

/-- Settles O37: taken, JNE is a jump with the check of its register; not taken, a write of PC + 2. -/
theorem jneJumpsExactlyOnNotEqual : Obligations.JneJumpsExactlyOnNotEqual := by
  refine fun s => ⟨fun _ => rfl, rfl, fun hfl => ⟨fun j => ?_, fun a => exec_jne_range hfl⟩, fun hfl a => ?_⟩
  · exact ⟨_, execJne_taken s j hfl, rfl, framePc_setPc s _⟩
  · exact ⟨_, execJne_not_taken s a hfl, rfl, framePc_setPc s _⟩

/-! ## The range check -/

/-- Settles O29: each instruction by its own range lemma, the ALU instructions by those they share. -/
theorem registerByteOutOfRangeRaises : Obligations.RegisterByteOutOfRangeRaises := by
  intro s a b
  refine ⟨fun ha => ⟨?_, fun hfl => ?_, fun hfl => ?_⟩, fun ha hb => ?_⟩
  · have halu (m : Mnemonic) : s.aluInstr m a b = .next (s.raise (.regRange a)) :=
      aluInstr_range_a s m b ha
    simp only [List.forall_mem_cons]
    exact ⟨exec_ldi_range s b ha, exec_prn_range s ha, halu _, halu _, halu _, exec_push_range s ha,
      exec_pop_range s ha, exec_call_range s ha, exec_jmp_range s ha, halu _, halu _, halu _, halu _,
      halu _, halu _, nofun⟩
  · exact ⟨exec_jeq_range hfl ha, _, execJne_not_taken s a hfl, rfl⟩
  · exact ⟨exec_jne_range hfl ha, _, execJeq_not_taken s a hfl, rfl⟩
  · have halu (m : Mnemonic) : s.aluInstr m a b = .next (s.raise (.regRange b)) :=
      aluInstr_range_b s m ha hb
    simp only [List.forall_mem_cons]
    exact ⟨halu _, halu _, halu _, halu _, halu _, halu _, halu _, halu _, halu _, nofun⟩

end Sys2Proof.Machine
end

section
/-! PROOFS. The two round trips through the stack: POP after PUSH (42_stack.md) and RET after CALL
(43_control_flow.md). -/

namespace Sys2Proof.Machine

/-- What was pushed is on top again once SP and the pushed cell are as the push left them. -/
theorem top_of_push {s u : State} {v : Byte} (hsp : u.sp = s.sp - 1)
    (hcell : u.mem.read (s.sp - 1) = (s.push v).mem.read (s.sp - 1)) :
    u.top = v ∧ u.drop.sp = s.sp := by
  constructor
  · rw [State.top, hsp, hcell, State.push_mem, Memory.read_write_same]
  · rw [State.drop_sp, hsp, sub_add_cancel]

/-- Settles O32: POP loads the top of the stack and drops it. -/
theorem popAfterPushGivesThePushedValue : Obligations.PopAfterPushGivesThePushedValue := by
  intro s t u v j k hpush hsp hcell hpop
  obtain rfl := Host.Outcome.next.inj ((execPush_regByte s j).symm.trans hpush)
  obtain rfl := Host.Outcome.next.inj ((execPop_regByte u k).symm.trans hpop)
  obtain ⟨htop, hdrop⟩ := top_of_push hsp hcell
  exact ⟨(State.getReg_setReg_same u.drop k u.top).trans htop, hdrop⟩

/-- Settles O38: RET jumps to the top of the stack and drops it. -/
theorem retAfterCallResumesBehindTheCall : Obligations.RetAfterCallResumesBehindTheCall := by
  intro s t u v j hcall hsp hcell hret
  obtain rfl := Host.Outcome.next.inj ((execCall_regByte s j).symm.trans hcall)
  obtain rfl := Host.Outcome.next.inj ((exec_ret u).symm.trans hret)
  exact top_of_push hsp hcell

end Sys2Proof.Machine
end

section
/-! PROOFS. What no instruction but a few reads: FL (41_alu.md §4) and SP (10_state.md R26). A change of that
register before an instruction and the same change after it come to the same. -/

namespace Sys2Proof.Machine

open Sys2Proof.Laws.Decode

/-- `g` before a handler and `g` after it come to the same. -/
def Commutes (g : State → State) (F : State → Host.Outcome State Fault Refusal) : Prop :=
  ∀ s t, F s = .next t → F (g s) = .next (g t)

/-- A handler with one register operand, which raises out of range and is `f` in range, commutes with what
taking a fault and `f` commute with. -/
theorem commutes_of_regOperand {F : Byte → State → Host.Outcome State Fault Refusal}
    {f : Fin 8 → State → State} {g : State → State}
    (hrange : ∀ (s : State) {a : Byte}, 8 ≤ a.toNat → F a s = .next (s.raise (.regRange a)))
    (hreg : ∀ (s : State) (j : Fin 8), F (regByte j) s = .next (f j s))
    (hraise : ∀ s e, (g s).raise e = g (s.raise e)) (hf : ∀ s j, f j (g s) = g (f j s)) (a : Byte) :
    Commutes g (F a) := by
  intro s t h
  by_cases ha : a.toNat < 8
  · obtain ⟨j, rfl⟩ := exists_regByte ha
    obtain rfl := Host.Outcome.next.inj ((hreg s j).symm.trans h)
    rw [hreg, hf]
  · have h8 := Nat.not_lt.mp ha
    obtain rfl := Host.Outcome.next.inj ((hrange s h8).symm.trans h)
    rw [hrange _ h8, hraise]

/-- Two states with the same registers and parameters run an ALU instruction alike. -/
theorem aluInstr_congr {s u t : State} {m : Mnemonic} {a b : Byte} (hregs : SameRegs s u)
    (hconfig : u.config = s.config) (h : s.aluInstr m a b = .next t) :
    (∃ e, t = s.raise e ∧ u.aluInstr m a b = .next (u.raise e)) ∨
    ∃ f j va vb, t = s.aluWritten f j va vb ∧ u.aluInstr m a b = .next (u.aluWritten f j va vb) := by
  by_cases ha : a.toNat < 8
  · by_cases hb : b.toNat < 8
    · obtain ⟨j, rfl⟩ := exists_regByte ha
      obtain ⟨k, rfl⟩ := exists_regByte hb
      cases hf : aluSelect s.config (s.config.opcodeMap.byteOf m) with
      | none =>
        refine .inl ⟨_, Host.Outcome.next.inj (h.symm.trans (aluInstr_unsupported s m j k hf)), ?_⟩
        rw [← hconfig] at hf ⊢
        exact aluInstr_unsupported u m j k hf
      | some f =>
        refine .inr ⟨f, j, _, _, Host.Outcome.next.inj (h.symm.trans (aluInstr_of_select s m f j k hf)), ?_⟩
        rw [← hconfig] at hf
        rw [← hregs j, ← hregs k]
        exact aluInstr_of_select u m f j k hf
    · have h8 := Nat.not_lt.mp hb
      exact .inl ⟨_, Host.Outcome.next.inj (h.symm.trans (aluInstr_range_b s m ha h8)),
        aluInstr_range_b u m ha h8⟩
  · have h8 := Nat.not_lt.mp ha
    exact .inl ⟨_, Host.Outcome.next.inj (h.symm.trans (aluInstr_range_a s m b h8)),
      aluInstr_range_a u m b h8⟩

/-! ## FL -/

/-- CMP writes FL whatever it held; the other functions leave it. -/
theorem aluWritten_setFl (s : State) (f : AluFn) (j : Fin 8) (va vb x : Byte) :
    ∃ y, (s.setFl x).aluWritten f j va vb = (s.aluWritten f j va vb).setFl y ∧
      (y = x ∨ y = (s.aluWritten f j va vb).fl) := by
  by_cases hf : f = .cmp
  · subst hf
    exact ⟨_, rfl, .inr rfl⟩
  · rw [aluWritten_of_ne_cmp _ j va vb hf, aluWritten_of_ne_cmp s j va vb hf]
    exact ⟨x, rfl, .inl rfl⟩

/-- Settles O40: no operation commutes with a write of FL but the comparison, which ignores it. -/
theorem onlyJeqAndJneReadFl : Obligations.OnlyJeqAndJneReadFl := by
  intro s t i x hi h
  suffices hfl : ∃ y, exec i (s.setFl x) = .next (t.setFl y) ∧ (y = x ∨ y = t.fl) from hfl
  cases hop : aluOperands i with
  | some operands =>
    obtain ⟨m, a, b⟩ := operands
    rw [exec_alu hop] at h ⊢
    rcases aluInstr_congr (u := s.setFl x) (State.setFl_getReg s x) rfl h with
      ⟨e, rfl, hu⟩ | ⟨f, j, va, vb, rfl, hu⟩
    · exact ⟨x, hu, .inl rfl⟩
    · obtain ⟨y, hy, hcase⟩ := aluWritten_setFl s f j va vb x
      exact ⟨y, hy ▸ hu, hcase⟩
  | none =>
    refine ⟨x, ?_, .inl rfl⟩
    cases i with
    | hlt => cases h; rfl
    | ret => cases h; rfl
    | ldi a imm =>
      exact commutes_of_regOperand (F := (execLdi · imm)) (g := (State.setFl · x))
        (exec_ldi_range · imm) (execLdi_regByte · · imm) (fun _ _ => rfl) (fun _ _ => rfl) a s t h
    | prn a =>
      exact commutes_of_regOperand (F := execPrn) (g := (State.setFl · x))
        exec_prn_range execPrn_regByte (fun _ _ => rfl) (fun _ _ => rfl) a s t h
    | push a =>
      exact commutes_of_regOperand (F := execPush) (g := (State.setFl · x))
        exec_push_range execPush_regByte (fun _ _ => rfl) (fun _ _ => rfl) a s t h
    | pop a =>
      exact commutes_of_regOperand (F := execPop) (g := (State.setFl · x))
        exec_pop_range execPop_regByte (fun _ _ => rfl) (fun _ _ => rfl) a s t h
    | call a =>
      exact commutes_of_regOperand (F := execCall) (g := (State.setFl · x))
        exec_call_range execCall_regByte (fun _ _ => rfl) (fun _ _ => rfl) a s t h
    | jmp a =>
      exact commutes_of_regOperand (F := execJmp) (g := (State.setFl · x))
        exec_jmp_range execJmp_regByte (fun _ _ => rfl) (fun _ _ => rfl) a s t h
    | jeq a => exact absurd rfl (hi a).1
    | jne a => exact absurd rfl (hi a).2
    | _ => cases hop

/-! ## SP -/

/-- Another value in SP and nothing else changed. -/
def State.setSp (s : State) (x : Byte) : State := { s with sp := x }

theorem aluWritten_setSp (s : State) (f : AluFn) (j : Fin 8) (va vb x : Byte) :
    (s.setSp x).aluWritten f j va vb = (s.aluWritten f j va vb).setSp x := by
  cases f <;> rfl

theorem jmp_commutes_setSp (a x : Byte) : Commutes (State.setSp · x) (exec (.jmp a)) :=
  commutes_of_regOperand (F := execJmp) exec_jmp_range execJmp_regByte (fun _ _ => rfl) (fun _ _ => rfl) a

theorem jeq_commutes_setSp (a x : Byte) : Commutes (State.setSp · x) (exec (.jeq a)) := by
  intro s t h
  by_cases hfl : s.fl = flEqual
  · rw [exec_jeq_of_equal a hfl] at h
    exact (exec_jeq_of_equal (s := s.setSp x) a hfl).trans (jmp_commutes_setSp a x s t h)
  · obtain rfl := Host.Outcome.next.inj ((execJeq_not_taken s a hfl).symm.trans h)
    exact execJeq_not_taken (s.setSp x) a hfl

theorem jne_commutes_setSp (a x : Byte) : Commutes (State.setSp · x) (exec (.jne a)) := by
  intro s t h
  by_cases hfl : s.fl = flEqual
  · obtain rfl := Host.Outcome.next.inj ((execJne_not_taken s a hfl).symm.trans h)
    exact execJne_not_taken (s.setSp x) a hfl
  · rw [exec_jne_of_not_equal a hfl] at h
    exact (exec_jne_of_not_equal (s := s.setSp x) a hfl).trans (jmp_commutes_setSp a x s t h)

/-- An instruction that is no stack instruction does the same with any other value in SP (10_state.md R26). -/
theorem exec_commutes_setSp {i : Instr} (hi : usesSp i = false) (x : Byte) :
    Commutes (State.setSp · x) (exec i) := by
  intro s t h
  cases hop : aluOperands i with
  | some operands =>
    obtain ⟨m, a, b⟩ := operands
    rw [exec_alu hop] at h ⊢
    rcases aluInstr_congr (s := s) (u := s.setSp x) (fun _ => rfl) rfl h with
      ⟨e, rfl, hu⟩ | ⟨f, j, va, vb, rfl, hu⟩
    · exact hu
    · exact hu.trans (congrArg _ (aluWritten_setSp s f j va vb x))
  | none =>
    cases i with
    | hlt => cases h; rfl
    | ldi a imm =>
      exact commutes_of_regOperand (F := (execLdi · imm)) (g := (State.setSp · x))
        (exec_ldi_range · imm) (execLdi_regByte · · imm) (fun _ _ => rfl) (fun _ _ => rfl) a s t h
    | prn a =>
      exact commutes_of_regOperand (F := execPrn) (g := (State.setSp · x))
        exec_prn_range execPrn_regByte (fun _ _ => rfl) (fun _ _ => rfl) a s t h
    | jmp a => exact jmp_commutes_setSp a x s t h
    | jeq a => exact jeq_commutes_setSp a x s t h
    | jne a => exact jne_commutes_setSp a x s t h
    | push | pop | call | ret => cases hi
    | _ => cases hop

/-- Settles O41: the frame of SP, and no operation of these instructions reads it. -/
theorem onlyStackInstructionsTouchSp : Obligations.OnlyStackInstructionsTouchSp :=
  fun s t _ x hi h => ⟨exec_sp_of_not_usesSp h hi, exec_commutes_setSp hi x s t h⟩

end Sys2Proof.Machine
end

section
/-! PROOFS. The output history: a PRN appends one byte and nothing else does, and the ports show it
(44_load_print_halt.md R161 to R163, 00_scope.md R9). -/

namespace Sys2Proof.Machine

/-! ## The output history -/

theorem regByte_injective {j k : Fin 8} (h : regByte j = regByte k) : j = k := by
  have hval := congrArg BitVec.toNat h
  rw [toNat_regByte, toNat_regByte] at hval
  exact Fin.ext hval

theorem not_raises_prn {s : State} {j : Fin 8} {e : Raised} : ¬ Raises s (.prn (regByte j)) e := by
  rintro (⟨a, ha, h8⟩ | ⟨m, a, b, hi, _⟩)
  · obtain rfl : a = regByte j := by simpa [Instr.regOperands] using ha
    rw [toNat_regByte] at h8
    omega
  · cases hi

theorem Effect.output_of_prn {s t : State} {j : Fin 8} (h : Effect s (.prn (regByte j)) t) :
    t.output = s.output ++ [s.getReg j] := by
  generalize ha : regByte j = a at h
  cases h with
  | prn k =>
    rw [regByte_injective ha]
    rfl
  | alu _ m f k l hi => cases hi

theorem Effect.output_of_not_prn {s t : State} {i : Instr} (h : Effect s i t)
    (hi : ∀ j, i ≠ .prn (regByte j)) : t.output = s.output := by
  cases h with
  | prn j => exact absurd rfl (hi j)
  | alu _ m f j k => exact aluWritten_output s f j _ _
  | _ => rfl

/-- The block runs at a PRN of register `j`, in range. -/
def State.PrintsReg (s : State) (j : Fin 8) : Prop :=
  s.runState = .running ∧ s.atPc = .instr (.prn (regByte j))

theorem step_output_of_prints {s t : State} {j : Fin 8} (hp : s.PrintsReg j) (h : step s = .next t) :
    t.output = s.output ++ [s.getReg j] := by
  obtain ⟨hr, hd⟩ := hp
  rcases step_running hr h with ⟨i, e, hi, hraise, rfl⟩ | ⟨i, u, hi, heff, rfl⟩ | ⟨op, hi, rfl⟩
  · cases hd.symm.trans hi
    exact absurd hraise not_raises_prn
  · cases hd.symm.trans hi
    exact heff.output_of_prn
  · cases hd.symm.trans hi

theorem step_output_of_not_prints {s t : State} (hp : ∀ j, ¬ s.PrintsReg j) (h : step s = .next t) :
    t.output = s.output := by
  rcases step_next h with ⟨_, rfl⟩ | ⟨hr, ⟨i, e, _, _, rfl⟩ | ⟨i, u, hd, heff, rfl⟩ | ⟨op, _, rfl⟩⟩
  · rfl
  · rfl
  · exact heff.output_of_not_prn fun j hi => hp j ⟨hr, hi ▸ hd⟩
  · rfl

/-- Settles O45: by whether the block runs at a PRN of a register in range. -/
theorem onlyPrnAppendsToTheOutput : Obligations.OnlyPrnAppendsToTheOutput := by
  intro s t h
  by_cases hp : ∃ j, s.PrintsReg j
  · obtain ⟨j, hj⟩ := hp
    exact .inr ⟨hj.1, j, hj.2, step_output_of_prints hj h⟩
  · exact .inl (step_output_of_not_prints (not_exists.mp hp) h)

/-! ## The output ports -/

theorem emitted_append {s t : State} {v : Byte} (h : t.output = s.output ++ [v]) :
    emitted s t = some v := by
  simp [emitted, h]

theorem emitted_same {s t : State} (h : t.output = s.output) : emitted s t = none := by
  simp [emitted, h]

theorem emitted_iff {s t : State} (h : step s = .next t) (v : Byte) :
    emitted s t = some v ↔ ∃ j, s.PrintsReg j ∧ v = s.getReg j := by
  constructor
  · intro hv
    by_cases hp : ∃ j, s.PrintsReg j
    · obtain ⟨j, hj⟩ := hp
      rw [emitted_append (step_output_of_prints hj h)] at hv
      exact ⟨j, hj, (Option.some.inj hv).symm⟩
    · rw [emitted_same (step_output_of_not_prints (not_exists.mp hp) h)] at hv
      cases hv
  · rintro ⟨j, hj, rfl⟩
    exact emitted_append (step_output_of_prints hj h)

theorem boundary_of_stepEn {s : State} {inp : Inputs} (hrst : inp.rst = false) (hen : inp.stepEn = true) :
    boundary inp s = step s := by
  simp [boundary, hrst, hen]

/-- Settles O55: `out` is what the step emitted, and the other ports are read off the two run states. -/
theorem outputPortsShowTheStep : Obligations.OutputPortsShowTheStep := by
  intro s t inp hrst hen h
  rw [boundary_of_stepEn hrst hen] at h
  refine ⟨fun v => ?_, ?_, ?_, ?_, fun hf => ?_, fun hf => ?_⟩
  · have hout : (outputs inp s t).out = emitted s t := by simp [outputs, hrst]
    rw [hout, emitted_iff h]
    simp only [State.PrintsReg, and_assoc, exists_and_left]
  · simp [outputs, hrst, hen]
  · simp [outputs]
  · simp [outputs]
  · simp [outputs, hf]
  · simp [outputs, hf]

end Sys2Proof.Machine
end

section
/-! PROOFS. The whole memory array: an image written byte by byte (20_memory.md §2) and the canonical form as a
normal form (20_memory.md §1). -/

namespace Sys2Proof.Machine.Memory

/-! ## An image -/

theorem add_one_add_ofNat (a : Byte) (n : Nat) : a + 1 + BitVec.ofNat 8 n = a + BitVec.ofNat 8 (n + 1) := by
  rw [BitVec.add_assoc, BitVec.add_comm 1]
  exact congrArg (a + ·) (BitVec.ofNat_add n 1).symm

/-- Addresses that are none of the written ones read as before. -/
theorem read_writeBytes_of_ne (m : Memory) (a b : Byte) (bs : List Byte)
    (h : ∀ n < bs.length, b ≠ a + BitVec.ofNat 8 n) : (m.writeBytes a bs).read b = m.read b := by
  induction bs generalizing m a with
  | nil => rfl
  | cons v vs ih =>
    have hhead : b ≠ a := by simpa using h 0 (by simp)
    have htail : ∀ n < vs.length, b ≠ a + 1 + BitVec.ofNat 8 n := fun n hn =>
      add_one_add_ofNat a n ▸ h (n + 1) (by simpa using hn)
    rw [writeBytes, ih (m.write a v) (a + 1) htail, read_write_of_ne m a b v hhead]

/-- Byte `n` of at most 256 is at address `a + n`: no later byte wraps around onto it. -/
theorem read_writeBytes (m : Memory) (a : Byte) (bs : List Byte) (hlen : bs.length ≤ 256) (n : Nat)
    (h : n < bs.length) : (m.writeBytes a bs).read (a + BitVec.ofNat 8 n) = bs[n] := by
  induction bs generalizing m a n with
  | nil => cases h
  | cons v vs ih =>
    rw [List.length_cons] at hlen h
    cases n with
    | zero =>
      have hlater : ∀ k < vs.length, a + BitVec.ofNat 8 0 ≠ a + 1 + BitVec.ofNat 8 k := by
        intro k hk heq
        rw [add_one_add_ofNat] at heq
        have hk0 := congrArg BitVec.toNat (add_left_cancel heq)
        rw [BitVec.toNat_ofNat, BitVec.toNat_ofNat] at hk0
        omega
      rw [writeBytes, read_writeBytes_of_ne _ _ _ _ hlater]
      simp
    | succ n =>
      rw [writeBytes, ← add_one_add_ofNat]
      exact ih (m.write a v) (a + 1) (by omega) n (by omega)

theorem read_image (m : Memory) (image : List Byte) (hlen : image.length ≤ 256) (n : Nat)
    (h : n < image.length) : (m.writeBytes 0 image).read (BitVec.ofNat 8 n) = image[n] := by
  simpa using read_writeBytes m 0 image hlen n h

theorem read_behind_image (m : Memory) (image : List Byte) (a : Byte) (ha : image.length ≤ a.toNat) :
    (m.writeBytes 0 image).read a = m.read a := by
  refine read_writeBytes_of_ne m 0 a image fun n hn heq => ?_
  have hval : a.toNat = n % 256 := by simp [heq]
  have := Nat.mod_le n 256
  omega

/-! ## The canonical form -/

theorem wfFrom_cons {lo k : Nat} {v : Byte} {rest : Memory} (h : wfFrom lo ((k, v) :: rest) = true) :
    lo ≤ k ∧ k < 256 ∧ v ≠ unlisted ∧ wfFrom (k + 1) rest = true := by
  simp only [wfFrom, Bool.and_eq_true, decide_eq_true_eq] at h
  obtain ⟨⟨⟨hlo, hk⟩, hv⟩, hrest⟩ := h
  exact ⟨hlo, hk, hv, hrest⟩

theorem readAt_cons_same (k : Nat) (v : Byte) (rest : Memory) : readAt ((k, v) :: rest) k = v := if_pos rfl

theorem readAt_cons_of_ne {k a : Nat} (v : Byte) (rest : Memory) (h : a ≠ k) :
    readAt ((k, v) :: rest) a = readAt rest a := if_neg h.symm

/-- Below its first cell a canonical memory is unlisted. -/
theorem readAt_of_lt {lo a : Nat} {m : Memory} (h : wfFrom lo m = true) (ha : a < lo) :
    readAt m a = unlisted := by
  induction m generalizing lo with
  | nil => rfl
  | cons c rest ih =>
    obtain ⟨k, v⟩ := c
    obtain ⟨hlo, _, _, hrest⟩ := wfFrom_cons h
    rw [readAt_cons_of_ne v rest (by omega), ih hrest (by omega)]

/-- The first cell of a canonical memory is listed in every other one that reads alike, and not below its own
first cell. -/
theorem first_le_of_readAt_eq {lo k l : Nat} {v w : Byte} {m n : Memory}
    (hm : wfFrom lo ((k, v) :: m) = true) (hn : wfFrom lo ((l, w) :: n) = true)
    (h : ∀ a < 256, readAt ((k, v) :: m) a = readAt ((l, w) :: n) a) : l ≤ k := by
  obtain ⟨_, hk, hv, _⟩ := wfFrom_cons hm
  obtain ⟨_, _, _, hrest⟩ := wfFrom_cons hn
  by_contra hlt
  have hread := h k hk
  rw [readAt_cons_same, readAt_cons_of_ne w n (by omega), readAt_of_lt hrest (by omega)] at hread
  exact hv hread

theorem eq_nil_of_readAt_unlisted {lo : Nat} {m : Memory} (hm : wfFrom lo m = true)
    (h : ∀ a < 256, readAt m a = unlisted) : m = [] := by
  cases m with
  | nil => rfl
  | cons c rest =>
    obtain ⟨_, hk, hv, _⟩ := wfFrom_cons hm
    exact absurd ((readAt_cons_same ..).symm.trans (h _ hk)) hv

/-- Canonical memories that read alike have the same first cell, and their tails read alike. -/
theorem eq_of_readAt_eq {lo : Nat} {m n : Memory} (hm : wfFrom lo m = true) (hn : wfFrom lo n = true)
    (h : ∀ a < 256, readAt m a = readAt n a) : m = n := by
  induction m generalizing lo n with
  | nil => exact (eq_nil_of_readAt_unlisted hn fun a ha => (h a ha).symm).symm
  | cons c m ih =>
    cases n with
    | nil => exact eq_nil_of_readAt_unlisted hm h
    | cons d n =>
      obtain ⟨k, v⟩ := c
      obtain ⟨l, w⟩ := d
      have hkl : k = l := Nat.le_antisymm
        (first_le_of_readAt_eq hn hm fun a ha => (h a ha).symm) (first_le_of_readAt_eq hm hn h)
      subst hkl
      obtain ⟨_, hk, _, hm'⟩ := wfFrom_cons hm
      obtain ⟨_, _, _, hn'⟩ := wfFrom_cons hn
      have hvw : v = w := by simpa [readAt_cons_same] using h k hk
      have htail : ∀ a < 256, readAt m a = readAt n a := by
        intro a ha
        by_cases hak : a = k
        · subst hak
          rw [readAt_of_lt hm' (Nat.lt_succ_self a), readAt_of_lt hn' (Nat.lt_succ_self a)]
        · rw [← readAt_cons_of_ne v m hak, h a ha, readAt_cons_of_ne w n hak]
      rw [hvw, ih hm' hn' htail]

/-- Settles O51: by the normal form at every address below 256. -/
theorem memoriesThatReadAlikeAreEqual : Obligations.MemoriesThatReadAlikeAreEqual := by
  intro m n hm hn h
  refine eq_of_readAt_eq hm hn fun a ha => ?_
  have hread := h (BitVec.ofNat 8 a)
  rwa [read, read, BitVec.toNat_ofNat, Nat.mod_eq_of_lt ha] at hread

end Sys2Proof.Machine.Memory
end

section
/-! PROOFS. The host: the load of an image, boot, reset and the writes between steps (20_memory.md §2,
70_reset_and_hazards.md, 00_scope.md §4). -/

namespace Sys2Proof.Machine

/-! ## Loading and booting -/

theorem load_of_le (s : State) {image : List Byte} (h : image.length ≤ 256) :
    s.load image = some { s with mem := s.mem.writeBytes 0 image } := if_pos h

theorem load_of_gt (s : State) {image : List Byte} (h : 256 < image.length) : s.load image = none :=
  if_neg (Nat.not_le.mpr h)

/-- Settles O54: the load is the write of the image at address 0. -/
theorem loadPutsTheImageAtAddressZero : Obligations.LoadPutsTheImageAtAddressZero := by
  refine fun s image => ⟨fun hlen => ⟨_, load_of_le s hlen, ?_⟩, load_of_gt s⟩
  exact ⟨Memory.read_image s.mem image hlen, Memory.read_behind_image s.mem image⟩

theorem reset_getReg : ∀ k : Fin 8, State.reset.getReg k = if k = 7 then 0xF4 else 0x00 := by decide

/-- Settles O48: boot is the load of the image into the reset state, whose memory is empty. -/
theorem bootStartsFromTheResetValues : Obligations.BootStartsFromTheResetValues := by
  refine ⟨rfl, fun c image hlen => ⟨_, load_of_le _ hlen, ?_⟩⟩
  exact ⟨rfl, reset_getReg, rfl, rfl, rfl, rfl, rfl, rfl, rfl, rfl, Memory.wf_writeBytes 0 image rfl,
    Memory.read_image [] image hlen, Memory.read_behind_image [] image⟩

/-! ## One boundary -/

/-- Settles O52: `rst` wins over the other inputs, and `State.rst` takes only the parameters from the state. -/
theorem rstGivesTheResetStateFromAnyState : Obligations.RstGivesTheResetStateFromAnyState := by
  intro s inp hrst
  have hboundary : boundary inp s = .next s.rst := by simp [boundary, hrst]
  refine ⟨s.rst, hboundary, rfl, reset_getReg, rfl, rfl, rfl, rfl, rfl, rfl, rfl, fun _ => rfl, rfl, ?_⟩
  simp [outputs, hrst]

/-- Settles O53: by which of the two enables is set, `step_en` first. -/
theorem hostWritesOnlyBetweenSteps : Obligations.HostWritesOnlyBetweenSteps := by
  refine fun s inp hrst => ⟨boundary_of_stepEn hrst, fun hen hwe => ?_, fun hen hwe => ?_⟩
  · have hwrite : boundary inp s = .next (s.hostWrite inp.ldAddr inp.ldData) := by
      simp [boundary, hrst, hen, hwe]
    exact ⟨_, hwrite, Memory.read_write_same .., fun a ha => Memory.read_write_of_ne s.mem _ a _ ha⟩
  · simp [boundary, hrst, hen, hwe]

end Sys2Proof.Machine
end
